-- ==== Sys2Proof/Word.lean ====
section
/-! DEFINITION. The word types of the chyp-8 core (spec/00_scope.md R6, R9, R10): every value is unsigned, bit 0 is the
least significant bit, and nothing sign-extends. -/

namespace Sys2Proof

/-- A byte of memory, a V register, a timer, the literal kk (R6 REG_WIDTH, TIMER_WIDTH). -/
abbrev Byte := BitVec 8

/-- An instruction word, I, PC, a stack entry (R6 I_WIDTH, PC_WIDTH, WORD_BYTES). -/
abbrev Word := BitVec 16

/-- The 12-bit literal nnn (R72). -/
abbrev Addr12 := BitVec 12

/-- The 4-bit literal n (R72). -/
abbrev Nibble := BitVec 4

/-- The index of a V register: "every index 0..15 names a register and none is invalid" (R73). -/
abbrev RegIdx := Fin 16

/-- The index 0xF, which names VF (R20). -/
abbrev RegIdx.vf : RegIdx := 15

/-- Two bytes as one big-endian word (R12, R54): the first byte is bits 15-8. -/
abbrev bigEndian (hi lo : Byte) : Word := hi ++ lo

end Sys2Proof
end

