-- ==== Sys2Proof/Machine/Flags.lean ====
section
/-! DEFINITION. Every flag value the spec gives VF (spec/10_state.md R21, spec/41_register_alu.md R120): 0 or 1. -/

namespace Sys2Proof.Machine

/-- A condition as a flag value: 1 if it holds, else 0. -/
def flagOf (p : Bool) : Byte := if p then 1 else 0

/-- 8xy4: the carry out of bit 7, from the exact sum (R128). -/
def carryFlag (a b : Byte) : Byte := flagOf (255 < a.toNat + b.toNat)

/-- 8xy5 (a = V[x], b = V[y]) and 8xy7 (a = V[y], b = V[x]): 1 exactly when a > b, strictly (R129, R131, 90_conflicts.md
C1). -/
def greaterFlag (a b : Byte) : Byte := flagOf (b.toNat < a.toNat)

/-- 8xy6: the bit shifted out, bit 0 (R130). -/
def lowBitFlag (a : Byte) : Byte := a &&& 1

/-- 8xyE: the bit shifted out, bit 7 (R132). -/
def highBitFlag (a : Byte) : Byte := (a >>> 7) &&& 1

/-- Fx1E with FX1E_VF: whether the exact sum I + V[x] leaves the address range (spec/42_index_memory.md R152). -/
def addressOverflowFlag (i : Word) (b : Byte) : Byte := flagOf (0xFFF < i.toNat + b.toNat)

end Sys2Proof.Machine
end

