-- ==== Sys2Proof/Config.lean ====
section
/-! DEFINITION. What an implementation fixes: the open parameters (spec/00_scope.md R7) as constants with no body, the
decided constants (R8) at the values the spec decides, and the free byte of the random source (R133). None of it is
state, and nothing can write it (spec/10_state.md R34). -/

namespace Sys2Proof

/-- VF_OPERAND_TIMING (R8, spec/41_register_alu.md R121): whether the statements of a row read the registers the
earlier ones wrote, or read all register operands before any write. -/
inductive VfTiming where
  | sequential
  | latched
  deriving DecidableEq, Repr

/-- The configuration parameters that a meaning reads (R7, R8). A meaning is written over any `Params`, and `exec` runs
it at `Config.params`. -/
structure Params where
  /-- FX1E_VF: whether Fx1E writes VF from an address overflow. -/
  fx1eVf : Bool
  /-- LDST_INCREMENTS_I: whether Fx55 and Fx65 add x + 1 to I. -/
  ldstIncrementsI : Bool
  /-- SPRITE_MSB_FIRST: whether sprite column c is bit 7 - c of its byte. -/
  spriteMsbFirst : Bool
  /-- VF_OPERAND_TIMING. -/
  vfTiming : VfTiming
  deriving DecidableEq, Repr

/-- FONT, the 80 bytes at 0x000-0x04F at construction. OPEN: the spec gives no byte (R7, 92_eei_decisions.md D14; log
entry 2), so no proof can see one. -/
opaque Config.font : Vector Byte 80

/-- FX1E_VF. OPEN: "a model must support both settings" (R152, D10; log entry 1). -/
opaque Config.fx1eVf : Bool

/-- The byte that the k-th draw of RAND takes when the host has put none on the rand port: a free value, "under no
law" (R13, R133, D23; log entry 3). -/
opaque Config.freeRand : Nat → Byte

/-- The configuration of this machine: FX1E_VF open, the other three at the values R8 decides (log entry 5). -/
def Config.params : Params where
  fx1eVf := Config.fx1eVf
  ldstIncrementsI := false
  spriteMsbFirst := true
  vfTiming := .sequential

/-- The recommended value of FONT (93_implementation_defined.md G2, general knowledge). The model does NOT adopt it: it
serves as the hypothesis `Config.font = Config.conventionalFont` where a picture is wanted. -/
def Config.conventionalFont : Vector Byte 80 :=
  #v[0xF0, 0x90, 0x90, 0x90, 0xF0,  0x20, 0x60, 0x20, 0x20, 0x70,
     0xF0, 0x10, 0xF0, 0x80, 0xF0,  0xF0, 0x10, 0xF0, 0x10, 0xF0,
     0x90, 0x90, 0xF0, 0x10, 0x10,  0xF0, 0x80, 0xF0, 0x10, 0xF0,
     0xF0, 0x80, 0xF0, 0x90, 0xF0,  0xF0, 0x10, 0x20, 0x40, 0x40,
     0xF0, 0x90, 0xF0, 0x90, 0xF0,  0xF0, 0x90, 0xF0, 0x10, 0xF0,
     0xF0, 0x90, 0xF0, 0x90, 0x90,  0xE0, 0x90, 0xE0, 0x90, 0xE0,
     0xF0, 0x80, 0x80, 0x80, 0xF0,  0xE0, 0x90, 0x90, 0x90, 0xE0,
     0xF0, 0x80, 0xF0, 0x80, 0xF0,  0xF0, 0x80, 0xF0, 0x80, 0x80]

end Sys2Proof
end

