-- ==== Sys2Proof/Machine/State.lean ====
section
/-! DEFINITION. The machine's state as plain data (spec/10_state.md R20-R36), the reasons a check can raise (R211), the
reasons the machine has no meaning, and the state after reset (R38). -/

namespace Sys2Proof.Machine

/-- The display buffer `disp[c][r]` (R30): 32 rows of 64 one-bit pixels, held by rows; `true` is 1. -/
abbrev Display := Vector (Vector Bool 64) 32

/-- Memory (spec/20_memory.md R50): the bytes that differ from what an unlisted address reads as, by rising address. -/
abbrev Memory := List Host.Cell

/-- The condition a fault status records (R33 `cause`, codes in spec/60_exceptions.md R211). -/
inductive Cause where
  | none
  | stackOverflow
  | stackUnderflow
  | outOfBoundsAccess
  | keyIndexOutOfRange
  deriving DecidableEq, Repr

/-- The fault status register (R33): read-only to the host, reached by no instruction. -/
structure FaultStatus where
  halted : Bool
  cause : Cause
  pc : Word
  word : Word
  addr : Word
  deriving DecidableEq, Repr

/-- The state of the machine. -/
structure State where
  /-- V0-VF (R20); V[0xF] is VF (R21). -/
  v : Vector Byte 16
  /-- I, the address register (R27). -/
  i : Word
  /-- PC (R23). -/
  pc : Word
  /-- SP, an integer in [0,16] (R28). -/
  sp : Fin 17
  /-- The call stack (R28). -/
  stack : Vector Word 16
  /-- DT, delay_timer (R29). -/
  dt : Byte
  /-- ST, sound_timer (R29). -/
  st : Byte
  /-- The display buffer (R30). -/
  disp : Display
  /-- The dirty flag (R31). -/
  dirty : Bool
  /-- key[0..15], `true` is pressed (R32). -/
  key : Vector Bool 16
  /-- The 4096 bytes of memory (R50). -/
  mem : Memory
  /-- The fault status register (R33). -/
  fault : FaultStatus
  /-- MODEL'S OWN (log entry 3): the byte the host holds on the rand port (R35) for the step in progress, until a draw takes
  it; `none` between transactions and in a step that the host gives no byte. -/
  randPort : Option Byte
  /-- MODEL'S OWN (log entry 3): how many draws of RAND took a free byte; the next one takes `Config.freeRand` of it. -/
  randDraws : Nat
  deriving DecidableEq, Repr

/-- The fatal conditions of R210 and R211, as the checks of the machine raise them. Each is raised by the operation its
comment names and is TAKEN as the fatal entry of R213 (`fatalEntry`, a next state with the fault status written), so
no step of this machine ends in `Host.Outcome.fault` (log entry 6). Safe: the hardware halts there too. -/
inductive Fault where
  /-- Raised by `pushCall` (2nnn) when SP = 16. -/
  | stackOverflow
  /-- Raised by `popCall` (00EE) when SP = 0. -/
  | stackUnderflow
  /-- Raised by `checkRange` (the fetch, Dxyn, Fx33, Fx55, Fx65) at the first address above 0xFFF. -/
  | outOfBoundsAccess (addr : Nat)
  /-- Raised by `readKey` (Ex9E, ExA1) when V[x] > 15. -/
  | keyIndexOutOfRange (index : Byte)
  deriving DecidableEq, Repr

/-- What has no meaning in the model. No step refuses; the host's load transaction does (R67). -/
inductive Refusal where
  /-- Raised by an arm of `exec` whose instruction has no meaning yet: none. Safe. -/
  | notModelled (mnemonic : String)
  /-- Raised by the load transactions for a byte beyond 0xFFF or an image over 3584 bytes: "refuses a longer image
  whole" (R67, U12). Safe. -/
  | romTooLong
  /-- Raised by the load transactions after the first step: "A load at any other time is outside what the spec defines"
  (R67, U12; log entry 11). Safe. -/
  | loadAfterFirstStep
  deriving DecidableEq, Repr

/-- The fault status after reset: every field 0 (R33, R38). -/
def FaultStatus.clear : FaultStatus where
  halted := false
  cause := .none
  pc := 0
  word := 0
  addr := 0

/-- The state after reset (R38, R240): "font preloaded, all else zeroed, PC = 0x200". Memory lists nothing, since an
unlisted address reads as its reset value. The two RAND fields are the model's own (log entry 3). -/
def State.reset : State where
  v := Vector.replicate 16 0
  i := 0
  pc := 0x200
  sp := 0
  stack := Vector.replicate 16 0
  dt := 0
  st := 0
  disp := Vector.replicate 32 (Vector.replicate 64 false)
  dirty := false
  key := Vector.replicate 16 false
  mem := []
  fault := .clear
  randPort := none
  randDraws := 0

end Sys2Proof.Machine
end

