-- ==== Sys2Proof/Machine/Ops.lean ====
section
/-! DEFINITION. The named operations over registers, memory, the stack, the keypad and the random source, and the fatal
entry (spec/60_exceptions.md R213). A meaning reads and writes the state through these only. There is no return from a
fatal condition (R215). -/

namespace Sys2Proof.Machine

/-! ## Registers (spec/10_state.md R20-R31) -/

/-- V[r]. -/
def State.getV (s : State) (r : RegIdx) : Byte := s.v[r]

/-- V[r] <- b. -/
def State.setV (s : State) (r : RegIdx) (b : Byte) : State := { s with v := s.v.set r b }

/-- VF <- b (R21). -/
def State.setVF (s : State) (b : Byte) : State := s.setV RegIdx.vf b

/-- V[k] <- bytes[k] for every k that `bytes` reaches (R156). -/
def State.loadV (s : State) (bytes : List Byte) : State :=
  { s with v := Vector.ofFn fun k : Fin 16 => (bytes[k.val]?).getD (s.getV k) }

/-- I <- a. -/
def State.setI (s : State) (a : Word) : State := { s with i := a }

/-- PC <- a. -/
def State.setPc (s : State) (a : Word) : State := { s with pc := a }

/-- DT <- b. -/
def State.setDt (s : State) (b : Byte) : State := { s with dt := b }

/-- ST <- b. -/
def State.setSt (s : State) (b : Byte) : State := { s with st := b }

/-- The memory becomes m. -/
def State.setMem (s : State) (m : Memory) : State := { s with mem := m }

/-- The display becomes d, and dirty <- 1: the two happen together in 00E0 and Dxyn (spec/43_display_sprite.md R175). -/
def State.setDisp (s : State) (d : Display) : State := { s with disp := d, dirty := true }

/-- The normal advance PC <- (PC + 2) mod 2^16 (spec/40_control_flow.md R100). -/
def State.advance (s : State) : State := s.setPc (s.pc + 2)

/-- The taken skip PC <- (PC + 4) mod 2^16, or the normal advance (R100). -/
def State.skipIf (s : State) (taken : Bool) : State := if taken then s.setPc (s.pc + 4) else s.advance

/-! ## Memory (spec/20_memory.md) -/

/-- MEM_SIZE (spec/00_scope.md R6): the addresses are 0x000-0xFFF. -/
def memSize : Nat := 0x1000

/-- What an address that memory does not list reads as: its reset value, FONT at 0x000-0x04F and 0x00 elsewhere
(spec/10_state.md R38; log entry 2). -/
def Memory.background (a : Nat) : Byte := if h : a < 80 then Config.font[a] else 0

/-- The byte at address a. -/
def Memory.read : Memory → Nat → Byte
  | [], a => Memory.background a
  | (b, c) :: rest, a => if b = a then c else Memory.read rest a

/-- The entry that makes address a read as c: none where c is what a reads as unlisted. -/
def Memory.entry (a : Nat) (c : Byte) : Memory := if c = Memory.background a then [] else [(a, c)]

/-- The memory with byte c at address a, in canonical form. -/
def Memory.write : Memory → Nat → Byte → Memory
  | [], a, c => Memory.entry a c
  | (b, d) :: rest, a, c =>
    if a < b then Memory.entry a c ++ (b, d) :: rest
    else if a = b then Memory.entry a c ++ rest
    else (b, d) :: Memory.write rest a c

/-- Whether every entry from address `lo` on stands in rising order, inside memory, and differs from its background. -/
def Memory.wfFrom : Nat → Memory → Bool
  | _, [] => true
  | lo, (a, c) :: rest => lo ≤ a && a < memSize && c != Memory.background a && Memory.wfFrom (a + 1) rest

/-- The canonical form: addresses strictly rising, all inside memory, no entry equal to its background. -/
def Memory.wf (m : Memory) : Bool := Memory.wfFrom 0 m

/-- The n addresses of a transfer from `base`, ascending and exact, "not reduced modulo 2^12 or 2^16" (R55, R58). -/
def addresses (base n : Nat) : List Nat := (List.range n).map (base + ·)

/-- The range check of a transfer (R55, R56): all addresses are checked, and the first one above 0xFFF is recorded. -/
def checkRange (base n : Nat) : Except Fault Unit :=
  match (addresses base n).find? (memSize ≤ ·) with
  | some a => .error (.outOfBoundsAccess a)
  | none => .ok ()

/-- The bytes at base .. base + n - 1, after the check (R12). -/
def loadBytes (s : State) (base n : Nat) : Except Fault (List Byte) :=
  match checkRange base n with
  | .error f => .error f
  | .ok () => .ok ((addresses base n).map (Memory.read s.mem))

/-- The memory with the bytes written from `base` up, in ascending order (R58). -/
def Memory.writeAll (m : Memory) (base : Nat) : List Byte → Memory
  | [] => m
  | c :: rest => Memory.writeAll (Memory.write m base c) (base + 1) rest

/-- The state with the bytes stored from `base` up, after the check (R12, R56). -/
def storeBytes (s : State) (base : Nat) (bytes : List Byte) : Except Fault State :=
  match checkRange base bytes.length with
  | .error f => .error f
  | .ok () => .ok (s.setMem (Memory.writeAll s.mem base bytes))

/-! ## The call stack (R28) -/

/-- stack[SP] <- a; SP <- SP + 1 (spec/40_control_flow.md R104). -/
def pushCall (s : State) (a : Word) : Except Fault State :=
  if h : s.sp.val < 16 then .ok { s with stack := s.stack.set s.sp.val a, sp := ⟨s.sp.val + 1, by omega⟩ }
  else .error .stackOverflow

/-- SP <- SP - 1; PC <- stack[SP] (spec/40_control_flow.md R102). The popped entry keeps its value. -/
def popCall (s : State) : Except Fault State :=
  if h : s.sp.val = 0 then .error .stackUnderflow
  else .ok { s with pc := s.stack[s.sp.val - 1], sp := ⟨s.sp.val - 1, by omega⟩ }

/-! ## The keypad (R32) -/

/-- key[k] for a key index taken from a register (spec/44_keys_timers.md R190). -/
def readKey (s : State) (k : Byte) : Except Fault Bool :=
  if h : k.toNat < 16 then .ok s.key[k.toNat] else .error (.keyIndexOutOfRange k)

/-- The largest j with key[j] = 1, if any key is pressed (spec/44_keys_timers.md R193). -/
def highestKey (s : State) : Option (Fin 16) := (List.finRange 16).reverse.find? (s.key[·])

/-! ## The random source (spec/00_scope.md R7, R13) -/

/-- The byte a draw takes: the one the host holds on the rand port, else a free one (log entry 3). -/
def randByte (s : State) : Byte := s.randPort.getD (Config.freeRand s.randDraws)

/-- The state after a draw: the byte is used up. -/
def afterDraw (s : State) : State :=
  match s.randPort with
  | some _ => { s with randPort := none }
  | none => { s with randDraws := s.randDraws + 1 }

/-! ## Taking a fatal condition (spec/60_exceptions.md R213) -/

/-- The cause a raised condition is recorded under (R211). -/
def Fault.cause : Fault → Cause
  | .stackOverflow => .stackOverflow
  | .stackUnderflow => .stackUnderflow
  | .outOfBoundsAccess _ => .outOfBoundsAccess
  | .keyIndexOutOfRange _ => .keyIndexOutOfRange

/-- The fault_addr a raised condition is recorded with (R33, R211). -/
def Fault.addr : Fault → Word
  | .stackOverflow => 0
  | .stackUnderflow => 0
  | .outOfBoundsAccess a => BitVec.ofNat 16 a
  | .keyIndexOutOfRange k => k.zeroExtend 16

/-- The 3-bit code of a cause (R33, R211). -/
def Cause.code : Cause → BitVec 3
  | .none => 0
  | .stackOverflow => 1
  | .stackUnderflow => 2
  | .outOfBoundsAccess => 3
  | .keyIndexOutOfRange => 4

/-- The fatal entry of R213: only the fault status is written, and PC stays on the instruction (spec/10_state.md R37). -/
def fatalEntry (w : Word) (f : Fault) (s : State) : State :=
  { s with fault := { halted := true, cause := f.cause, pc := s.pc, word := w, addr := f.addr } }

/-- The end of an instruction with word w begun in state s: its writes commit together (spec/00_scope.md R14), or its check
raised a fatal condition and the fatal entry is all that commits (spec/60_exceptions.md R212). -/
def commit (w : Word) (s : State) : Except Fault State → Host.Outcome State Fault Refusal
  | .ok t => .next t
  | .error f => .next (fatalEntry w f s)

end Sys2Proof.Machine
end

