-- ==== Sys2Proof/Machine/Operands.lean ====
section
/-! DEFINITION. Every operand form (spec/30_encoding.md R73, spec/42_index_memory.md R150) and the exact values that
instructions compute from their operands. A register operand is `State.getV`; a literal kk or n is used as it stands. -/

namespace Sys2Proof.Machine

/-- `zext_16(nnn)` (R73): the target of 1nnn and 2nnn, the value of Annn. -/
def literalAddr (nnn : Addr12) : Word := nnn.zeroExtend 16

/-- The target of Bnnn: nnn + V0, at most 0x10FE and "not reduced modulo 2^12" (spec/40_control_flow.md R109). -/
def indexedTarget (nnn : Addr12) (v0 : Byte) : Word := nnn.zeroExtend 16 + v0.zeroExtend 16

/-- The base address of a data transfer: I, as an exact integer (R55, R150). -/
def dataBase (s : State) : Nat := s.i.toNat

/-- I + V[x] mod 2^16 (spec/42_index_memory.md R152). -/
def addToIndex (i : Word) (b : Byte) : Word := i + b.zeroExtend 16

/-- The glyph address of Fx29: V[x] * 5, with no mask (R153). -/
def glyphAddr (b : Byte) : Word := b.zeroExtend 16 * 5

/-- The three digits of Fx33: hundreds, tens, ones (R154). -/
def bcdDigits (b : Byte) : List Byte :=
  [BitVec.ofNat 8 (b.toNat / 100), BitVec.ofNat 8 (b.toNat / 10 % 10), BitVec.ofNat 8 (b.toNat % 10)]

/-- V[0..x], inclusive (spec/42_index_memory.md R155). -/
def regsUpTo (s : State) (x : RegIdx) : List Byte := s.v.toList.take (x.val + 1)

/-- The number of bytes of Fx55 and Fx65: x + 1 (R58). -/
def blockLength (x : RegIdx) : Nat := x.val + 1

/-- I after the block copy of Fx55 and Fx65 (R155, R156): I + x + 1 where LDST_INCREMENTS_I, else unchanged. -/
def indexAfterBlock (p : Params) (s : State) (x : RegIdx) : Word :=
  if p.ldstIncrementsI then s.i + BitVec.ofNat 16 (x.val + 1) else s.i

/-- The register operands of a row that writes VF first (spec/41_register_alu.md R121): the state they are read from,
before (`old`) or after (`new`) the write of VF. -/
def operandState (p : Params) (old new : State) : State :=
  match p.vfTiming with
  | .sequential => new
  | .latched => old

end Sys2Proof.Machine
end

