-- ==== Sys2Proof/Machine/Alu.lean ====
section
/-! DEFINITION. The meanings of spec/41_register_alu.md: LD, ADD, OR, AND, XOR, SUB, SHR, SUBN, SHL, RND. Every one of them
advances PC by 2 and raises nothing. -/

namespace Sys2Proof.Machine

/-- V[x] <- b; PC <- PC + 2: the rows that only write their destination (R122-R127). -/
def writeReg (x : RegIdx) (b : Byte) (s : State) : State := (s.setV x b).advance

/-- VF <- flag a b; V[x] <- result a b; PC <- PC + 2, with a = V[x] and b = V[y]: the rows that write VF first (R121).
The flag reads the state before; the result reads it before or after the write of VF, as VF_OPERAND_TIMING says. -/
def flagThenResult (p : Params) (flag result : Byte → Byte → Byte) (x y : RegIdx) (s : State) : State :=
  let flagged := s.setVF (flag (s.getV x) (s.getV y))
  let operands := operandState p s flagged
  (flagged.setV x (result (operands.getV x) (operands.getV y))).advance

/-- LD Vx, kk (R122). -/
def execLdImm (x : RegIdx) (kk : Byte) (s : State) : Host.Outcome State Fault Refusal := .next (writeReg x kk s)

/-- ADD Vx, kk (R123): modulo 256, and no flag. -/
def execAddImm (x : RegIdx) (kk : Byte) (s : State) : Host.Outcome State Fault Refusal :=
  .next (writeReg x (s.getV x + kk) s)

/-- LD Vx, Vy (R124). -/
def execLdReg (x y : RegIdx) (s : State) : Host.Outcome State Fault Refusal := .next (writeReg x (s.getV y) s)

/-- OR Vx, Vy (R125). -/
def execOrReg (x y : RegIdx) (s : State) : Host.Outcome State Fault Refusal :=
  .next (writeReg x (s.getV x ||| s.getV y) s)

/-- AND Vx, Vy (R126). -/
def execAndReg (x y : RegIdx) (s : State) : Host.Outcome State Fault Refusal :=
  .next (writeReg x (s.getV x &&& s.getV y) s)

/-- XOR Vx, Vy (R127). -/
def execXorReg (x y : RegIdx) (s : State) : Host.Outcome State Fault Refusal :=
  .next (writeReg x (s.getV x ^^^ s.getV y) s)

/-- ADD Vx, Vy (R128): the sum is computed before VF is written, under both timings. -/
def execAddReg (x y : RegIdx) (s : State) : Host.Outcome State Fault Refusal :=
  .next (flagThenResult { Config.params with vfTiming := .latched } carryFlag (· + ·) x y s)

/-- SUB Vx, Vy (R129) under a configuration. -/
def subWith (p : Params) (x y : RegIdx) (s : State) : State := flagThenResult p greaterFlag (· - ·) x y s

/-- SUB Vx, Vy (R129). -/
def execSub (x y : RegIdx) (s : State) : Host.Outcome State Fault Refusal := .next (subWith Config.params x y s)

/-- SHR Vx (R130) under a configuration. V[y] is never read. -/
def shrWith (p : Params) (x : RegIdx) (s : State) : State :=
  flagThenResult p (fun a _ => lowBitFlag a) (fun a _ => a >>> 1) x x s

/-- SHR Vx (R130): field y is ignored. -/
def execShr (x _y : RegIdx) (s : State) : Host.Outcome State Fault Refusal := .next (shrWith Config.params x s)

/-- SUBN Vx, Vy (R131) under a configuration. -/
def subnWith (p : Params) (x y : RegIdx) (s : State) : State :=
  flagThenResult p (fun a b => greaterFlag b a) (fun a b => b - a) x y s

/-- SUBN Vx, Vy (R131). -/
def execSubn (x y : RegIdx) (s : State) : Host.Outcome State Fault Refusal := .next (subnWith Config.params x y s)

/-- SHL Vx (R132) under a configuration. V[y] is never read. -/
def shlWith (p : Params) (x : RegIdx) (s : State) : State :=
  flagThenResult p (fun a _ => highBitFlag a) (fun a _ => a <<< 1) x x s

/-- SHL Vx (R132): field y is ignored. -/
def execShl (x _y : RegIdx) (s : State) : Host.Outcome State Fault Refusal := .next (shlWith Config.params x s)

/-- RND Vx, kk (R133): a draw is taken whatever kk is. -/
def execRnd (x : RegIdx) (kk : Byte) (s : State) : Host.Outcome State Fault Refusal :=
  .next (writeReg x (randByte s &&& kk) (afterDraw s))

end Sys2Proof.Machine
end

