-- ==== Sys2Proof/Syntax.lean ====
section
/-! DEFINITION. The instructions: one constructor per row of spec/opcode_table.json, 35 in all (spec/00_scope.md R2).
An illegal word (spec/30_encoding.md R77) is no row of the table and no instruction: the decoder rejects it by name and the
step runs R110 on it. -/

namespace Sys2Proof

/-- An instruction, its operands named by the fields of spec/30_encoding.md R72. -/
inductive Instr where
  /-- 00E0 CLS (R173) -/
  | cls
  /-- 00EE RET (R102) -/
  | ret
  /-- 0nnn SYS nnn, every other family-0 word (R101) -/
  | sys (nnn : Addr12)
  /-- 1nnn JP nnn (R103) -/
  | jp (nnn : Addr12)
  /-- 2nnn CALL nnn (R104) -/
  | call (nnn : Addr12)
  /-- 3xkk SE Vx, kk (R105) -/
  | seImm (x : RegIdx) (kk : Byte)
  /-- 4xkk SNE Vx, kk (R106) -/
  | sneImm (x : RegIdx) (kk : Byte)
  /-- 5xy0 SE Vx, Vy (R107) -/
  | seReg (x y : RegIdx)
  /-- 6xkk LD Vx, kk (R122) -/
  | ldImm (x : RegIdx) (kk : Byte)
  /-- 7xkk ADD Vx, kk (R123) -/
  | addImm (x : RegIdx) (kk : Byte)
  /-- 8xy0 LD Vx, Vy (R124) -/
  | ldReg (x y : RegIdx)
  /-- 8xy1 OR Vx, Vy (R125) -/
  | orReg (x y : RegIdx)
  /-- 8xy2 AND Vx, Vy (R126) -/
  | andReg (x y : RegIdx)
  /-- 8xy3 XOR Vx, Vy (R127) -/
  | xorReg (x y : RegIdx)
  /-- 8xy4 ADD Vx, Vy (R128) -/
  | addReg (x y : RegIdx)
  /-- 8xy5 SUB Vx, Vy (R129) -/
  | sub (x y : RegIdx)
  /-- 8xy6 SHR Vx; y is decoded and ignored (R74, R130; log entry 8) -/
  | shr (x y : RegIdx)
  /-- 8xy7 SUBN Vx, Vy (R131) -/
  | subn (x y : RegIdx)
  /-- 8xyE SHL Vx; y is decoded and ignored (R74, R132; log entry 8) -/
  | shl (x y : RegIdx)
  /-- 9xy0 SNE Vx, Vy (R108) -/
  | sneReg (x y : RegIdx)
  /-- Annn LD I, nnn (R151) -/
  | ldI (nnn : Addr12)
  /-- Bnnn JP V0, nnn (R109) -/
  | jpV0 (nnn : Addr12)
  /-- Cxkk RND Vx, kk (R133) -/
  | rnd (x : RegIdx) (kk : Byte)
  /-- Dxyn DRW Vx, Vy, n (R174) -/
  | drw (x y : RegIdx) (n : Nibble)
  /-- Ex9E SKP Vx (R190) -/
  | skp (x : RegIdx)
  /-- ExA1 SKNP Vx (R191) -/
  | sknp (x : RegIdx)
  /-- Fx07 LD Vx, DT (R192) -/
  | ldVxDt (x : RegIdx)
  /-- Fx0A LD Vx, K (R193) -/
  | ldVxK (x : RegIdx)
  /-- Fx15 LD DT, Vx (R194) -/
  | ldDtVx (x : RegIdx)
  /-- Fx18 LD ST, Vx (R195) -/
  | ldStVx (x : RegIdx)
  /-- Fx1E ADD I, Vx (R152) -/
  | addI (x : RegIdx)
  /-- Fx29 LD F, Vx (R153) -/
  | ldF (x : RegIdx)
  /-- Fx33 LD B, Vx (R154) -/
  | ldB (x : RegIdx)
  /-- Fx55 LD [I], Vx (R155) -/
  | ldMemVx (x : RegIdx)
  /-- Fx65 LD Vx, [I] (R156) -/
  | ldVxMem (x : RegIdx)
  deriving DecidableEq, Repr

end Sys2Proof
end

