-- ==== Sys2Proof/WellFormed.lean ====
section
/-! DEFINITION. Which instructions have a word of their own. The operand types already bound every field; the one further
check is that SYS does not stand for the words of CLS and RET (spec/30_encoding.md R75, spec/40_control_flow.md R101). -/

namespace Sys2Proof

/-- SYS is "every family-0 word other than 00E0 and 00EE" (R101). -/
def sysOperandOk (nnn : Addr12) : Bool := nnn != 0x0E0 && nnn != 0x0EE

/-- Well-formed: the instruction's encoding decodes to it. -/
def Instr.wf : Instr → Bool
  | .sys nnn => sysOperandOk nnn
  | .cls | .ret | .jp _ | .call _ | .seImm _ _ | .sneImm _ _ | .seReg _ _ | .ldImm _ _ | .addImm _ _ | .ldReg _ _
  | .orReg _ _ | .andReg _ _ | .xorReg _ _ | .addReg _ _ | .sub _ _ | .shr _ _ | .subn _ _ | .shl _ _ | .sneReg _ _
  | .ldI _ | .jpV0 _ | .rnd _ _ | .drw _ _ _ | .skp _ | .sknp _ | .ldVxDt _ | .ldVxK _ | .ldDtVx _ | .ldStVx _
  | .addI _ | .ldF _ | .ldB _ | .ldMemVx _ | .ldVxMem _ => true

end Sys2Proof
end

