-- ==== Sys2Proof/Machine/ControlFlow.lean ====
section
/-! DEFINITION. The meanings of spec/40_control_flow.md: SYS, RET, JP, CALL, the register skips, JP V0, and the illegal
word. -/

namespace Sys2Proof.Machine

/-- What SYS and an illegal word do to the state: the event is output only (`stepLog`), and PC advances (R101, R110). -/
def loggedNoOp (s : State) : State := s.advance

/-- SYS nnn (R101): nnn is ignored. -/
def execSys (_nnn : Addr12) (s : State) : Host.Outcome State Fault Refusal := .next (loggedNoOp s)

/-- RET (R102): the new PC is the popped entry + 2. -/
def execRet (s : State) : Host.Outcome State Fault Refusal :=
  commit (encode .ret) s ((popCall s).map State.advance)

/-- JP nnn (R103). -/
def execJp (nnn : Addr12) (s : State) : Host.Outcome State Fault Refusal := .next (s.setPc (literalAddr nnn))

/-- CALL nnn (R104): the address of the CALL itself is pushed. -/
def execCall (nnn : Addr12) (s : State) : Host.Outcome State Fault Refusal :=
  commit (encode (.call nnn)) s ((pushCall s s.pc).map fun t => t.setPc (literalAddr nnn))

/-- SE Vx, kk (R105). -/
def execSeImm (x : RegIdx) (kk : Byte) (s : State) : Host.Outcome State Fault Refusal :=
  .next (s.skipIf (s.getV x = kk))

/-- SNE Vx, kk (R106). -/
def execSneImm (x : RegIdx) (kk : Byte) (s : State) : Host.Outcome State Fault Refusal :=
  .next (s.skipIf (s.getV x ≠ kk))

/-- SE Vx, Vy (R107). -/
def execSeReg (x y : RegIdx) (s : State) : Host.Outcome State Fault Refusal :=
  .next (s.skipIf (s.getV x = s.getV y))

/-- SNE Vx, Vy (R108). -/
def execSneReg (x y : RegIdx) (s : State) : Host.Outcome State Fault Refusal :=
  .next (s.skipIf (s.getV x ≠ s.getV y))

/-- JP V0, nnn (R109). -/
def execJpV0 (nnn : Addr12) (s : State) : Host.Outcome State Fault Refusal :=
  .next (s.setPc (indexedTarget nnn (s.getV 0)))

/-- An illegal word (R110): what the step does where the decoder rejects the word. -/
def execIllegal (s : State) : Host.Outcome State Fault Refusal := .next (loggedNoOp s)

end Sys2Proof.Machine
end

