-- ==== Sys2Proof/Machine/DisplaySprite.lean ====
section
/-! DEFINITION. The display buffer, the XOR sprite engine and the meanings of spec/43_display_sprite.md: CLS and DRW. -/

namespace Sys2Proof.Machine

/-! ## The display buffer (R170) -/

/-- Every pixel 0 (R171 `clear()`). -/
def Display.clear : Display := Vector.replicate 32 (Vector.replicate 64 false)

/-- The pixel at column c and row r; outside the frame there is none, and none is lit. -/
def Display.pixel (d : Display) (c r : Nat) : Bool := if h : r < 32 ∧ c < 64 then d[r][c] else false

/-- The display with the pixel at column c and row r flipped; coordinates outside the frame are dropped (R172). -/
def Display.flip (d : Display) (c r : Nat) : Display :=
  if h : r < 32 ∧ c < 64 then d.set r (d[r].set c (!d[r][c])) else d

/-! ## The sprite engine (R171, R172) -/

/-- A draw in progress: the display so far, and whether a lit pixel has been flipped. -/
structure Draw where
  disp : Display
  coll : Bool
  deriving DecidableEq, Repr

/-- One sprite pixel on (c, r): a lit target is a collision, "never cleared within the draw" (R172). -/
def Draw.plot (d : Draw) (c r : Nat) : Draw := { disp := d.disp.flip c r, coll := d.coll || d.disp.pixel c r }

/-- Sprite column col of a row byte (R172, SPRITE_MSB_FIRST). -/
def spriteBit (p : Params) (b : Byte) (col : Nat) : Bool :=
  if p.spriteMsbFirst then b.getLsbD (7 - col) else b.getLsbD col

/-- One row of a sprite, its 8 columns in order, at columns x0 .. x0 + 7 of display row r (exact integers). -/
def Draw.row (p : Params) (b : Byte) (x0 r : Nat) (d : Draw) : Draw :=
  (List.range 8).foldl (fun d col => if spriteBit p b col then d.plot (x0 + col) r else d) d

/-- The rows of a sprite from display row r down. -/
def Draw.rows (p : Params) (x0 : Nat) : List Byte → Nat → Draw → Draw
  | [], _, d => d
  | b :: rest, r, d => Draw.rows p x0 rest (r + 1) (d.row p b x0 r)

/-- drawSprite(X0, Y0, b[0..n-1]) (R172). -/
def drawSprite (p : Params) (x0 y0 : Byte) (bytes : List Byte) (disp : Display) : Draw :=
  Draw.rows p x0.toNat bytes y0.toNat { disp := disp, coll := false }

/-! ## The meanings -/

/-- CLS (R173). -/
def execCls (s : State) : Host.Outcome State Fault Refusal := .next (s.setDisp Display.clear).advance

/-- DRW Vx, Vy, n with its sprite bytes read (R174): VF <- 0, the coordinates read once, the draw, VF <- 1 on a collision. -/
def drawWith (p : Params) (x y : RegIdx) (bytes : List Byte) (s : State) : State :=
  let cleared := s.setVF 0
  let operands := operandState p s cleared
  let drawn := drawSprite p (operands.getV x) (operands.getV y) bytes s.disp
  ((cleared.setVF (flagOf drawn.coll)).setDisp drawn.disp).advance

/-- DRW Vx, Vy, n (R174) under a configuration: the addresses are checked before VF is cleared. -/
def drwWith (p : Params) (x y : RegIdx) (n : Nibble) (s : State) : Except Fault State :=
  (loadBytes s (dataBase s) n.toNat).map fun bytes => drawWith p x y bytes s

/-- DRW Vx, Vy, n (R174). -/
def execDrw (x y : RegIdx) (n : Nibble) (s : State) : Host.Outcome State Fault Refusal :=
  commit (encode (.drw x y n)) s (drwWith Config.params x y n s)

end Sys2Proof.Machine
end

