-- ==== Sys2Proof/Machine/IndexMemory.lean ====
section
/-! DEFINITION. The meanings of spec/42_index_memory.md: LD I, ADD I, LD F, LD B, LD [I], LD Vx [I]. Every address check runs
before the first write (spec/20_memory.md R56). -/

namespace Sys2Proof.Machine

/-- LD I, nnn (R151). -/
def execLdI (nnn : Addr12) (s : State) : Host.Outcome State Fault Refusal := .next (s.setI (literalAddr nnn)).advance

/-- ADD I, Vx (R152) under a configuration: VF is written only where FX1E_VF, from the values before the instruction. -/
def addIWith (p : Params) (x : RegIdx) (s : State) : State :=
  let added := s.setI (addToIndex s.i (s.getV x))
  (if p.fx1eVf then added.setVF (addressOverflowFlag s.i (s.getV x)) else added).advance

/-- ADD I, Vx (R152): FX1E_VF is open (log entry 1). -/
def execAddI (x : RegIdx) (s : State) : Host.Outcome State Fault Refusal := .next (addIWith Config.params x s)

/-- LD F, Vx (R153). -/
def execLdF (x : RegIdx) (s : State) : Host.Outcome State Fault Refusal := .next (s.setI (glyphAddr (s.getV x))).advance

/-- LD B, Vx (R154). -/
def execLdB (x : RegIdx) (s : State) : Host.Outcome State Fault Refusal :=
  commit (encode (.ldB x)) s ((storeBytes s (dataBase s) (bcdDigits (s.getV x))).map State.advance)

/-- LD [I], Vx (R155) under a configuration. -/
def storeBlockWith (p : Params) (x : RegIdx) (s : State) : Except Fault State :=
  (storeBytes s (dataBase s) (regsUpTo s x)).map fun t => (t.setI (indexAfterBlock p s x)).advance

/-- LD [I], Vx (R155). -/
def execLdMemVx (x : RegIdx) (s : State) : Host.Outcome State Fault Refusal :=
  commit (encode (.ldMemVx x)) s (storeBlockWith Config.params x s)

/-- LD Vx, [I] (R156) under a configuration. -/
def loadBlockWith (p : Params) (x : RegIdx) (s : State) : Except Fault State :=
  (loadBytes s (dataBase s) (blockLength x)).map fun bytes => ((s.loadV bytes).setI (indexAfterBlock p s x)).advance

/-- LD Vx, [I] (R156). -/
def execLdVxMem (x : RegIdx) (s : State) : Host.Outcome State Fault Refusal :=
  commit (encode (.ldVxMem x)) s (loadBlockWith Config.params x s)

end Sys2Proof.Machine
end

