-- ==== Sys2Proof/Machine/KeysTimers.lean ====
section
/-! DEFINITION. The meanings of spec/44_keys_timers.md: SKP, SKNP, LD Vx DT, LD Vx K, LD DT, LD ST. -/

namespace Sys2Proof.Machine

/-- SKP Vx (R190): only the key's level counts. -/
def execSkp (x : RegIdx) (s : State) : Host.Outcome State Fault Refusal :=
  commit (encode (.skp x)) s ((readKey s (s.getV x)).map fun pressed => s.skipIf pressed)

/-- SKNP Vx (R191). -/
def execSknp (x : RegIdx) (s : State) : Host.Outcome State Fault Refusal :=
  commit (encode (.sknp x)) s ((readKey s (s.getV x)).map fun pressed => s.skipIf (!pressed))

/-- LD Vx, DT (R192). -/
def execLdVxDt (x : RegIdx) (s : State) : Host.Outcome State Fault Refusal := .next (s.setV x s.dt).advance

/-- LD Vx, K (R193): with no key pressed the step retries, and nothing at all changes. -/
def execLdVxK (x : RegIdx) (s : State) : Host.Outcome State Fault Refusal :=
  match highestKey s with
  | none => .next s
  | some j => .next (s.setV x (BitVec.ofNat 8 j.val)).advance

/-- LD DT, Vx (R194). -/
def execLdDtVx (x : RegIdx) (s : State) : Host.Outcome State Fault Refusal := .next (s.setDt (s.getV x)).advance

/-- LD ST, Vx (R195). -/
def execLdStVx (x : RegIdx) (s : State) : Host.Outcome State Fault Refusal := .next (s.setSt (s.getV x)).advance

end Sys2Proof.Machine
end

