-- ==== Sys2Proof/Machine/Fetch.lean ====
section
/-! DEFINITION. Fetching an instruction word and the step transaction around it (spec/30_encoding.md R71). -/

namespace Sys2Proof.Machine

/-- The word at PC and PC + 1, big-endian, after the range check (R54, R71). -/
def fetchWord (s : State) : Except Fault Word :=
  (loadBytes s s.pc.toNat 2).map fun bytes => bigEndian (bytes.getD 0 0) (bytes.getD 1 0)

/-- The step transaction of R71, around `run`, the meaning of an instruction: a halted machine changes nothing
(spec/60_exceptions.md R214), a failed fetch is fatal with word 0, an illegal word is the logged no-op of R110. -/
def stepWith (run : Instr → State → Host.Outcome State Fault Refusal) (s : State) :
    Host.Outcome State Fault Refusal :=
  if s.fault.halted then .next s
  else match fetchWord s with
    | .error f => .next (fatalEntry 0 f s)
    | .ok w => match decode w with
      | .ok i => run i s
      | .error _ => execIllegal s

/-- The state with a word stored at PC and PC + 1, big-endian, where the fetch reads it; unchanged where PC is out of
range and nothing can be fetched (log entry 14). -/
def storeWordAtPc (s : State) (w : Word) : State :=
  match storeBytes s s.pc.toNat (wordBytes w) with
  | .ok t => t
  | .error _ => s

end Sys2Proof.Machine
end

