-- ==== Sys2Proof/Machine/Step.lean ====
section
/-! DEFINITION. One step of the machine, and the placing of an instruction where the step fetches it. -/

namespace Sys2Proof.Machine

/-- One step (spec/30_encoding.md R71). -/
def step (s : State) : Host.Outcome State Fault Refusal := stepWith exec s

/-- s with the word of `nbits` bits that `w` holds stored where the next step fetches it. It stands for the host's load of
a ROM (spec/20_memory.md R67; log entry 12). -/
def State.withFetchWord (s : State) (nbits w : Nat) : State := storeWordAtPc s (BitVec.ofNat 16 (w % 2 ^ nbits))

end Sys2Proof.Machine
end

