-- ==== Sys2Proof/Machine/Ports.lean ====
section
/-! DEFINITION. The block's ports (spec/10_state.md R35): what a step replies and logs, the outputs the host reads, and the
host's transactions other than the step, each one atomic (spec/00_scope.md R5). Outputs hold no state (R36, R217; log
entry 10). -/

namespace Sys2Proof.Machine

/-! ## What a step answers (spec/30_encoding.md R71) -/

/-- The reply of the step transaction (R35). -/
inductive Reply where
  | executed
  | waiting
  | fatal
  | halted
  deriving DecidableEq, Repr

/-- The IllegalOpcode event log(pc, word) (spec/60_exceptions.md R217). -/
structure LogEvent where
  pc : Word
  word : Word
  deriving DecidableEq, Repr

/-- The word that a step of s executes, if it is not halted and its fetch is in range. -/
def stepWord (s : State) : Option Word :=
  if s.fault.halted then none else match fetchWord s with
    | .ok w => some w
    | .error _ => none

/-- Whether a word emits the event: SYS and every illegal word do (R217). -/
def isLogged (w : Word) : Bool :=
  match decode w with
  | .ok (.sys _) => true
  | .ok _ => false
  | .error _ => true

/-- The event a step of s emits on the log port (R217). -/
def stepLog (s : State) : Option LogEvent :=
  match stepWord s with
  | some w => if isLogged w then some { pc := s.pc, word := w } else none
  | none => none

/-- Whether a step of s retries: Fx0A with no key pressed (spec/44_keys_timers.md R193). -/
def stepWaits (s : State) : Bool :=
  match stepWord s with
  | some w => match decode w with
    | .ok (.ldVxK _) => (highestKey s).isNone
    | _ => false
  | none => false

/-- The reply of a step of s (R71). -/
def stepReply (s : State) : Reply :=
  if s.fault.halted then .halted
  else if stepWaits s then .waiting
  else match step s with
    | .next t => if t.fault.halted then .fatal else .executed
    | .fault _ => .fatal
    | .refused _ => .fatal

/-! ## Outputs (R35) -/

/-- disp_rd(c, r): it changes no state (spec/43_display_sprite.md R176). -/
def dispRd (s : State) (c : Fin 64) (r : Fin 32) : Bool := s.disp.pixel c.val r.val

/-- tone: 1 exactly while ST != 0 (spec/60_exceptions.md R223). -/
def tone (s : State) : Bool := s.st != 0

/-! ## Host transactions -/

/-- One counter's part of a tick (R220). -/
def countDown (b : Byte) : Byte := if 0 < b.toNat then b - 1 else b

/-- tick: each nonzero timer is decremented, halted or not (R214, R220). -/
def tick (s : State) : State := { s with dt := countDown s.dt, st := countDown s.st }

/-- key_set(m): key[k] <- m[k] for every k (R225). -/
def keySet (m : BitVec 16) (s : State) : State := { s with key := Vector.ofFn fun k : Fin 16 => m.getLsbD k.val }

/-- dirty_clr: dirty <- 0 (R226). -/
def dirtyClr (s : State) : State := { s with dirty := false }

/-- The host holds a byte on the rand port (R35). -/
def presentRand (b : Byte) (s : State) : State := { s with randPort := some b }

/-- The rand port is released. -/
def withdrawRand (s : State) : State := { s with randPort := none }

/-- The step transaction (spec/30_encoding.md R71), with the byte b on the rand port: supplying it is part of the host's row
for step (R227), and it is gone when the step ends, drawn or not (log entry 3). -/
def stepSupplied (b : Byte) (s : State) : Host.Outcome State Fault Refusal :=
  match step (presentRand b s) with
  | .next t => .next (withdrawRand t)
  | .fault f => .fault f
  | .refused r => .refused r

/-- reset: every piece of the machine's state is rebuilt (spec/70_reset_and_hazards.md R240). The random source is no
state of the machine: nothing stands on its port after a reset, and its free draws go on (log entry 4). -/
def resetMachine (s : State) : State := { State.reset with randDraws := s.randDraws }

/-- PROG_BASE (spec/00_scope.md R6): where a ROM is loaded and where the first step fetches. -/
def progBase : Nat := 0x200

/-- The longest ROM image: 3584 bytes fit in 0x200-0xFFF (spec/20_memory.md R67). -/
def romMax : Nat := memSize - progBase

/-- load(k, b): memory[0x200 + k] <- b (R67). -/
def loadByte (k : Nat) (b : Byte) (s : State) : State := s.setMem (Memory.write s.mem (progBase + k) b)

/-- The L writes of a ROM image, k = 0..L-1 (R67). -/
def loadImage (image : List Byte) (s : State) : State := s.setMem (Memory.writeAll s.mem progBase image)

/-- What the host does at a port that changes the machine: the rows of R227. A step carries the byte that the host supplies on
the rand port, which only Cxkk samples. -/
inductive Transaction where
  | reset
  | load (k : Nat) (b : Byte)
  | loadRom (image : List Byte)
  | step (rand : Byte)
  | tick
  | keySet (m : BitVec 16)
  | dirtyClr
  deriving DecidableEq, Repr

/-- The machine and the host's place in the boot order (spec/70_reset_and_hazards.md R243): whether it may still load,
"after a reset, before the first step" (R227; log entry 11). -/
structure Session where
  machine : State
  loading : Bool
  deriving DecidableEq, Repr

/-- A session at construction, which is a reset (R241). -/
def Session.start : Session where
  machine := State.reset
  loading := true

/-- One host transaction (R227): those that are not loads are open at any time, a load only in its row. -/
def Session.apply (h : Session) : Transaction → Host.Outcome Session Fault Refusal
  | .reset => .next { machine := resetMachine h.machine, loading := true }
  | .load k b =>
    if !h.loading then .refused .loadAfterFirstStep
    else if k < romMax then .next { h with machine := loadByte k b h.machine }
    else .refused .romTooLong
  | .loadRom image =>
    if !h.loading then .refused .loadAfterFirstStep
    else if image.length ≤ romMax then .next { h with machine := loadImage image h.machine }
    else .refused .romTooLong
  | .step rand => match stepSupplied rand h.machine with
    | .next t => .next { machine := t, loading := false }
    | .fault f => .fault f
    | .refused r => .refused r
  | .tick => .next { h with machine := Sys2Proof.Machine.tick h.machine }
  | .keySet m => .next { h with machine := Sys2Proof.Machine.keySet m h.machine }
  | .dirtyClr => .next { h with machine := Sys2Proof.Machine.dirtyClr h.machine }

/-- The host's transactions in the order it issues them, up to the first one without a move (spec/00_scope.md R5). -/
def Session.run (h : Session) : List Transaction → Host.Outcome Session Fault Refusal
  | [] => .next h
  | tx :: rest => match h.apply tx with
    | .next h' => Session.run h' rest
    | .fault f => .fault f
    | .refused r => .refused r

end Sys2Proof.Machine
end

