-- ==== Sys2Proof/Safety.lean ====
section
/-! DEFINITION. The terms that claims use: what a state may look like (`Inv`), what an instruction may write (`Frame`,
`regWrites`), and what a safe state is. -/

namespace Sys2Proof.Machine

/-- A run that reaches a halted state "has failed" (spec/60_exceptions.md R214). -/
def Safe (s : State) : Prop := s.fault.halted = false

/-- The fault status is all zero until a fatal entry, and records a cause after it (spec/10_state.md R33). -/
def FaultStatus.consistent (f : FaultStatus) : Bool :=
  if f.halted then f.cause != .none else f == FaultStatus.clear

/-- What every reachable state satisfies: memory in canonical form, PC at most 0x10FE, every stack entry a fetchable
address (R25, R28), and a consistent fault status. -/
structure Inv (s : State) : Prop where
  mem_wf : s.mem.wf = true
  pc_le : s.pc.toNat ≤ 0x10FE
  stack_le : ∀ k : Fin 16, s.stack[k].toNat ≤ 0xFFE
  fault_consistent : s.fault.consistent = true

/-- The byte of memory at address a, as a step reads it. -/
def State.byteAt (s : State) (a : Nat) : Byte := Memory.read s.mem a

/-- The pixel at column c and row r. -/
def State.pixelAt (s : State) (c r : Nat) : Bool := s.disp.pixel c r

/-- What an instruction may write beside PC. -/
structure Writes where
  regs : List RegIdx := []
  index : Bool := false
  callStack : Bool := false
  delay : Bool := false
  sound : Bool := false
  screen : Bool := false
  random : Bool := false
  bytes : List Nat := []

/-- From s to t, everything but PC and what `w` names is unchanged, every byte of memory outside `w.bytes` included. The
keypad and the fault status are in no instruction's effect. -/
structure Frame (w : Writes) (s t : State) : Prop where
  regs : ∀ r, r ∉ w.regs → t.getV r = s.getV r
  index : w.index = false → t.i = s.i
  stackPointer : w.callStack = false → t.sp = s.sp
  stackEntries : w.callStack = false → t.stack = s.stack
  delay : w.delay = false → t.dt = s.dt
  sound : w.sound = false → t.st = s.st
  pixels : w.screen = false → ∀ c r, t.pixelAt c r = s.pixelAt c r
  dirty : w.screen = false → t.dirty = s.dirty
  keys : t.key = s.key
  bytes : ∀ a, a ∉ w.bytes → t.byteAt a = s.byteAt a
  fault : t.fault = s.fault
  port : w.random = false → t.randPort = s.randPort
  draws : w.random = false → t.randDraws = s.randDraws

/-- The registers an instruction may write (spec/10_state.md R21, R22). -/
def regWrites : Instr → List RegIdx
  | .ldImm x _ | .addImm x _ | .ldReg x _ | .orReg x _ | .andReg x _ | .xorReg x _ | .rnd x _ | .ldVxDt x
  | .ldVxK x => [x]
  | .addReg x _ | .sub x _ | .shr x _ | .subn x _ | .shl x _ => [RegIdx.vf, x]
  | .drw _ _ _ => [RegIdx.vf]
  | .addI _ => if Config.fx1eVf then [RegIdx.vf] else []
  | .ldVxMem x => (List.finRange 16).filter (· ≤ x)
  | .cls | .ret | .sys _ | .jp _ | .call _ | .seImm _ _ | .sneImm _ _ | .seReg _ _ | .sneReg _ _ | .ldI _ | .jpV0 _
  | .skp _ | .sknp _ | .ldDtVx _ | .ldStVx _ | .ldF _ | .ldB _ | .ldMemVx _ => []

/-- The skips of R100: the instructions that may advance PC by 4. -/
def isSkip : Instr → Bool
  | .seImm _ _ | .sneImm _ _ | .seReg _ _ | .sneReg _ _ | .skp _ | .sknp _ => true
  | .cls | .ret | .sys _ | .jp _ | .call _ | .ldImm _ _ | .addImm _ _ | .ldReg _ _ | .orReg _ _ | .andReg _ _
  | .xorReg _ _ | .addReg _ _ | .sub _ _ | .shr _ _ | .subn _ _ | .shl _ _ | .ldI _ | .jpV0 _ | .rnd _ _
  | .drw _ _ _ | .ldVxDt _ | .ldVxK _ | .ldDtVx _ | .ldStVx _ | .addI _ | .ldF _ | .ldB _ | .ldMemVx _
  | .ldVxMem _ => false

/-- The instruction a step of s executes, if it executes one. -/
def stepInstr (s : State) : Option Instr :=
  match stepWord s with
  | some w => match decode w with
    | .ok i => some i
    | .error _ => none
  | none => none

/-- The state of a fatal entry from s (spec/60_exceptions.md R213): s with these fields in the fault status and nothing
else written. -/
def haltedWith (s : State) (cause : Cause) (word addr : Word) : State :=
  { s with fault := { halted := true, cause := cause, pc := s.pc, word := word, addr := addr } }

/-- The words spec/30_encoding.md R77 lists as illegal. -/
def isIllegalWord (w : Word) : Bool :=
  let f := w.toNat / 0x1000
  let n := w.toNat % 0x10
  let kk := w.toNat % 0x100
  (f = 0x5 && n != 0) || (f = 0x9 && n != 0) ||
  (f = 0x8 && [0x8, 0x9, 0xA, 0xB, 0xC, 0xD, 0xF].contains n) ||
  (f = 0xE && !([0x9E, 0xA1].contains kk)) ||
  (f = 0xF && !([0x07, 0x0A, 0x15, 0x18, 0x1E, 0x29, 0x33, 0x55, 0x65].contains kk))

/-- The words that stand for SYS: "every family-0 word other than 00E0 and 00EE" (spec/40_control_flow.md R101). -/
def isSysWord (w : Word) : Bool := w.toNat < 0x1000 && w != 0x00E0 && w != 0x00EE

/-- The word of memory at PC, big-endian (spec/20_memory.md R54). -/
def wordAtPc (s : State) : Word := bigEndian (s.byteAt s.pc.toNat) (s.byteAt (s.pc.toNat + 1))

/-- A step of s fetches and executes a word: it is not halted and both bytes lie in memory (R71). -/
structure Runs (s : State) : Prop where
  running : s.fault.halted = false
  fetchable : s.pc.toNat ≤ 0xFFE

/-- The word with number k decodes to i. -/
abbrev DecodesTo (k : Nat) (i : Instr) : Prop := decode (BitVec.ofNat 16 k) = .ok i

/-- The state that spec/10_state.md R38 gives every piece of the machine after a reset. -/
structure ResetValues (s : State) : Prop where
  regs : ∀ r, s.getV r = 0
  index : s.i = 0
  pc : s.pc = 0x200
  stackPointer : s.sp = 0
  stackEntries : ∀ k : Fin 16, s.stack[k] = 0
  delay : s.dt = 0
  sound : s.st = 0
  pixels : ∀ c r, s.pixelAt c r = false
  dirty : s.dirty = false
  keys : ∀ k : Fin 16, s.key[k] = false
  font : ∀ (a : Nat) (h : a < 80), s.byteAt a = Config.font[a]
  memory : ∀ a, 80 ≤ a → a < 0x1000 → s.byteAt a = 0
  fault : s.fault = { halted := false, cause := .none, pc := 0, word := 0, addr := 0 }
  tone : tone s = false

/-- Whether the sprite at (x0, y0), whose byte k is `bytes k` for k < n, has a 1 on display pixel (c, r), most significant bit
leftmost (spec/43_display_sprite.md R172). -/
def spriteCovers (x0 y0 n : Nat) (bytes : Nat → Byte) (c r : Nat) : Bool :=
  decide (y0 ≤ r ∧ r < y0 + n ∧ x0 ≤ c ∧ c < x0 + 8) && (bytes (r - y0)).getLsbD (7 - (c - x0))

end Sys2Proof.Machine
end

