-- ==== Sys2Proof/Certificates/Slice0/Obligations.lean ====
section
/-! DEFINITION. The statements for the provers. Each says which rule of spec/ it formalises. A statement that rests on a rule
marked `[decision: ...]` or `[derived: ...]` by the spec names the decision or the log entry. -/

open Sys2Proof Sys2Proof.Machine

/-! ## Encoding (spec/30_encoding.md) -/

/-- The decoder undoes the encoder on every well-formed instruction (R74, R75). -/
def Obligations.DecodeOfEncodeIsTheInstruction : Prop :=
  ∀ i : Instr, i.wf = true → decode (encode i) = .ok i

/-- The encoder undoes the decoder on every word that decodes (R74, R75): the word a fatal entry records, the encoding of
the instruction, is the word that was fetched (log entry 7). -/
def Obligations.EncodeOfDecodeIsTheWord : Prop :=
  ∀ (w : Word) (i : Instr), decode w = .ok i → encode i = w ∧ i.wf = true

/-- "decode is total": a word is rejected exactly when R77 lists it, and then by that name (spec decision D33). -/
def Obligations.DecodeRejectsExactlyTheIllegalWords : Prop :=
  ∀ w : Word, (isIllegalWord w = true → decode w = .error .illegalOpcode) ∧
    (isIllegalWord w = false → ∃ i, decode w = .ok i)

/-- The decoder agrees with the masks and matches of spec/opcode_table.json (R76): a word decodes to the instruction of the
row it matches, and is illegal when it matches none; two rows share a word only where SYS excludes it. -/
def Obligations.DecodeAgreesWithOpcodeTable : Prop :=
  (∀ (w : Word) (i : Instr), decode w = .ok i → (opcodeRowOf w).map OpcodeRow.mnemonic = some i.mnemonic) ∧
  (∀ w : Word, decode w = .error .illegalOpcode → opcodeRowOf w = none) ∧
  (∀ (w : Word) (r q : OpcodeRow), r ∈ opcodeTable → q ∈ opcodeTable → w &&& r.mask = r.pattern →
    w &&& q.mask = q.pattern → r = q ∨ w = 0x00E0 ∨ w = 0x00EE)

/-- Words of the spec's own examples decode to the instructions it names (spec/95_test_vectors.md E6, T1, A28, M16). -/
def Obligations.SampleWordsDecode : Prop :=
  DecodesTo 0x00E0 .cls ∧ DecodesTo 0x00EE .ret ∧ DecodesTo 0x0123 (.sys 0x123) ∧ DecodesTo 0x1204 (.jp 0x204) ∧
  DecodesTo 0x2210 (.call 0x210) ∧ DecodesTo 0x60FE (.ldImm 0 0xFE) ∧ DecodesTo 0xA300 (.ldI 0x300) ∧
  DecodesTo 0x8F06 (.shr 15 0) ∧ DecodesTo 0xE1A1 (.sknp 1) ∧ DecodesTo 0xD122 (.drw 1 2 2) ∧
  DecodesTo 0xFF55 (.ldMemVx 15)

/-! ## The step (spec/30_encoding.md R71) -/

/-- A step of a machine that is not halted, at an address where both bytes lie in memory, is exec of the instruction that
the big-endian word at PC decodes to; nothing is added around it (R54, R71). -/
def Obligations.StepRunsTheDecodedInstruction : Prop :=
  ∀ (s : State) (i : Instr), Runs s → decode (wordAtPc s) = .ok i → step s = exec i s

/-- An illegal word is a logged no-op that advances PC by 2 (R110). The event and the reply (R71) are functions of the state in
this model (log entry 10). -/
def Obligations.IllegalWordIsALoggedNoOp : Prop :=
  ∀ s : State, Runs s → isIllegalWord (wordAtPc s) = true →
    ∃ t, step s = .next t ∧ t.pc = s.pc + 2 ∧ Frame {} s t ∧
      stepLog s = some { pc := s.pc, word := wordAtPc s } ∧ stepReply s = .executed

/-- A fetch outside memory is fatal, with word 0 and the first address out of range (R71; spec decisions D3, D4, D5). -/
def Obligations.FetchOutOfRangeIsFatal : Prop :=
  ∀ s : State, s.fault.halted = false → 0xFFE < s.pc.toNat →
    step s = .next (haltedWith s .outOfBoundsAccess 0 (if s.pc = 0xFFF then 0x1000 else s.pc)) ∧
    stepReply s = .fatal ∧ stepLog s = none

/-- Every step of every state has a next state: no instruction faults or refuses outside the fatal entry
(93_implementation_defined.md: "Every input state of every transaction has exactly one result"; log entry 6). -/
def Obligations.EveryStepHasANextState : Prop :=
  (∀ s : State, ∃ t, step s = .next t) ∧ (∀ (i : Instr) (s : State), ∃ t, exec i s = .next t)

/-! ## Control flow (spec/40_control_flow.md) -/

/-- SYS nnn (R101), and the reply of R71. The first clause also covers nnn = 0x0E0 and 0x0EE, for which R101 has no word: there
it is the model's choice (log entry 15). The event and the reply are functions of the state in this model (log entry 10). -/
def Obligations.SysIsALoggedNoOp : Prop :=
  (∀ (nnn : Addr12) (s : State), ∃ t, exec (.sys nnn) s = .next t ∧ t.pc = s.pc + 2 ∧ Frame {} s t) ∧
  (∀ s : State, Runs s → isSysWord (wordAtPc s) = true →
    ∃ t, step s = .next t ∧ t.pc = s.pc + 2 ∧ Frame {} s t ∧
      stepLog s = some { pc := s.pc, word := wordAtPc s } ∧ stepReply s = .executed)

/-- RET (R102): underflow at SP = 0, else the popped entry + 2, and every entry keeps its value. What the fatal entry records is
spec decision D5 (log entries 6 and 7). -/
def Obligations.RetPopsAndAddsTwo : Prop :=
  DecodesTo 0x00EE .ret ∧ ∀ s : State,
    (s.sp = 0 → exec .ret s = .next (haltedWith s .stackUnderflow 0x00EE 0)) ∧
    (∀ k : Fin 16, s.sp.val = k.val + 1 →
      ∃ t, exec .ret s = .next t ∧ t.sp.val = k.val ∧ t.pc = s.stack[k] + 2 ∧ t.stack = s.stack ∧
        Frame { callStack := true } s t)

/-- JP nnn (R103). -/
def Obligations.JpGoesToItsTarget : Prop :=
  ∀ (nnn : Addr12) (s : State), DecodesTo (0x1000 + nnn.toNat) (.jp nnn) ∧
    ∃ t, exec (.jp nnn) s = .next t ∧ t.pc.toNat = nnn.toNat ∧ Frame {} s t

/-- CALL nnn (R104): overflow at SP = 16, else its own address is pushed, and the other entries are unchanged. What the fatal
entry records is spec decision D5 (log entries 6 and 7). -/
def Obligations.CallPushesItsOwnAddress : Prop :=
  ∀ (nnn : Addr12) (s : State), DecodesTo (0x2000 + nnn.toNat) (.call nnn) ∧
    (s.sp.val = 16 → exec (.call nnn) s =
      .next (haltedWith s .stackOverflow (BitVec.ofNat 16 (0x2000 + nnn.toNat)) 0)) ∧
    (∀ k : Fin 16, s.sp.val = k.val →
      ∃ t, exec (.call nnn) s = .next t ∧ t.stack[k] = s.pc ∧ (∀ j : Fin 16, j ≠ k → t.stack[j] = s.stack[j]) ∧
        t.sp.val = k.val + 1 ∧ t.pc.toNat = nnn.toNat ∧ Frame { callStack := true } s t)

/-- SE Vx, kk and SNE Vx, kk (R105, R106). -/
def Obligations.ImmediateSkipsCompareTheRegister : Prop :=
  ∀ (x : RegIdx) (kk : Byte) (s : State),
    DecodesTo (0x3000 + 0x100 * x.val + kk.toNat) (.seImm x kk) ∧
    DecodesTo (0x4000 + 0x100 * x.val + kk.toNat) (.sneImm x kk) ∧
    (∃ t, exec (.seImm x kk) s = .next t ∧ t.pc = (if s.getV x = kk then s.pc + 4 else s.pc + 2) ∧ Frame {} s t) ∧
    (∃ t, exec (.sneImm x kk) s = .next t ∧ t.pc = (if s.getV x = kk then s.pc + 2 else s.pc + 4) ∧ Frame {} s t)

/-- SE Vx, Vy and SNE Vx, Vy (R107, R108). -/
def Obligations.RegisterSkipsCompareTheRegisters : Prop :=
  ∀ (x y : RegIdx) (s : State),
    DecodesTo (0x5000 + 0x100 * x.val + 0x10 * y.val) (.seReg x y) ∧
    DecodesTo (0x9000 + 0x100 * x.val + 0x10 * y.val) (.sneReg x y) ∧
    (∃ t, exec (.seReg x y) s = .next t ∧ t.pc = (if s.getV x = s.getV y then s.pc + 4 else s.pc + 2) ∧
      Frame {} s t) ∧
    (∃ t, exec (.sneReg x y) s = .next t ∧ t.pc = (if s.getV x = s.getV y then s.pc + 2 else s.pc + 4) ∧
      Frame {} s t)

/-- JP V0, nnn (R109): the sum is not reduced modulo 2^12. -/
def Obligations.JpV0AddsWithoutWrapping : Prop :=
  ∀ (nnn : Addr12) (s : State), DecodesTo (0xB000 + nnn.toNat) (.jpV0 nnn) ∧
    ∃ t, exec (.jpV0 nnn) s = .next t ∧ t.pc.toNat = nnn.toNat + (s.getV 0).toNat ∧ Frame {} s t

/-- "CALL nnn then RET restores PC to the instruction following the original CALL and SP to its pre-CALL value" (R102, R104;
spec/95_test_vectors.md E4): whatever else happened in between, if the stack is as the CALL left it. -/
def Obligations.RetUndoesCall : Prop :=
  ∀ (nnn : Addr12) (s : State), s.sp.val < 16 → ∃ t, exec (.call nnn) s = .next t ∧
    ∀ u : State, u.sp = t.sp → u.stack = t.stack →
      ∃ r, exec .ret u = .next r ∧ r.pc = s.pc + 2 ∧ r.sp = s.sp

/-! ## Register ALU (spec/41_register_alu.md) -/

/-- LD Vx, kk and ADD Vx, kk (R122, R123): modulo 256, and no flag; VF changes only as the destination. -/
def Obligations.LoadAndAddImmediate : Prop :=
  ∀ (x : RegIdx) (kk : Byte) (s : State),
    DecodesTo (0x6000 + 0x100 * x.val + kk.toNat) (.ldImm x kk) ∧
    DecodesTo (0x7000 + 0x100 * x.val + kk.toNat) (.addImm x kk) ∧
    (∃ t, exec (.ldImm x kk) s = .next t ∧ t.getV x = kk ∧ t.pc = s.pc + 2 ∧ Frame { regs := [x] } s t) ∧
    (∃ t, exec (.addImm x kk) s = .next t ∧ (t.getV x).toNat = ((s.getV x).toNat + kk.toNat) % 256 ∧
      t.pc = s.pc + 2 ∧ Frame { regs := [x] } s t)

/-- LD, OR, AND, XOR Vx, Vy (R124, R125, R126, R127), bit by bit; VF changes only as the destination. -/
def Obligations.MoveAndLogicRegisters : Prop :=
  ∀ (x y : RegIdx) (s : State),
    DecodesTo (0x8000 + 0x100 * x.val + 0x10 * y.val) (.ldReg x y) ∧
    DecodesTo (0x8001 + 0x100 * x.val + 0x10 * y.val) (.orReg x y) ∧
    DecodesTo (0x8002 + 0x100 * x.val + 0x10 * y.val) (.andReg x y) ∧
    DecodesTo (0x8003 + 0x100 * x.val + 0x10 * y.val) (.xorReg x y) ∧
    (∃ t, exec (.ldReg x y) s = .next t ∧ t.getV x = s.getV y ∧ t.pc = s.pc + 2 ∧ Frame { regs := [x] } s t) ∧
    (∃ t, exec (.orReg x y) s = .next t ∧
      (∀ k, (t.getV x).getLsbD k = ((s.getV x).getLsbD k || (s.getV y).getLsbD k)) ∧
      t.pc = s.pc + 2 ∧ Frame { regs := [x] } s t) ∧
    (∃ t, exec (.andReg x y) s = .next t ∧
      (∀ k, (t.getV x).getLsbD k = ((s.getV x).getLsbD k && (s.getV y).getLsbD k)) ∧
      t.pc = s.pc + 2 ∧ Frame { regs := [x] } s t) ∧
    (∃ t, exec (.xorReg x y) s = .next t ∧
      (∀ k, (t.getV x).getLsbD k = ((s.getV x).getLsbD k ^^ (s.getV y).getLsbD k)) ∧
      t.pc = s.pc + 2 ∧ Frame { regs := [x] } s t)

/-- ADD Vx, Vy (R128): the exact sum modulo 256, VF the carry unless it is the destination. -/
def Obligations.AddRegistersSetsCarry : Prop :=
  ∀ (x y : RegIdx) (s : State), DecodesTo (0x8004 + 0x100 * x.val + 0x10 * y.val) (.addReg x y) ∧
    ∃ t, exec (.addReg x y) s = .next t ∧
      (t.getV x).toNat = ((s.getV x).toNat + (s.getV y).toNat) % 256 ∧
      (x ≠ 15 → t.getV 15 = if 255 < (s.getV x).toNat + (s.getV y).toNat then 1 else 0) ∧
      t.pc = s.pc + 2 ∧ Frame { regs := [x, 15] } s t

/-- SUB Vx, Vy and SUBN Vx, Vy with neither operand VF (R129, R131; the strict comparison of 90_conflicts.md C1, log entry
25): the same under both operand timings (spec decision D9). -/
def Obligations.SubtractSetsStrictGreater : Prop :=
  ∀ (x y : RegIdx) (s : State),
    DecodesTo (0x8005 + 0x100 * x.val + 0x10 * y.val) (.sub x y) ∧
    DecodesTo (0x8007 + 0x100 * x.val + 0x10 * y.val) (.subn x y) ∧
    (x ≠ 15 → y ≠ 15 →
      (∃ t, exec (.sub x y) s = .next t ∧
        (t.getV x).toNat = (256 + (s.getV x).toNat - (s.getV y).toNat) % 256 ∧
        t.getV 15 = (if (s.getV x).toNat > (s.getV y).toNat then 1 else 0) ∧
        t.pc = s.pc + 2 ∧ Frame { regs := [x, 15] } s t) ∧
      (∃ t, exec (.subn x y) s = .next t ∧
        (t.getV x).toNat = (256 + (s.getV y).toNat - (s.getV x).toNat) % 256 ∧
        t.getV 15 = (if (s.getV y).toNat > (s.getV x).toNat then 1 else 0) ∧
        t.pc = s.pc + 2 ∧ Frame { regs := [x, 15] } s t))

/-- SHR Vx and SHL Vx with x not VF (R130, R132; the same under both operand timings, spec decision D9): VF is the
bit shifted out, and y is ignored (log entry 8). -/
def Obligations.ShiftsSetTheBitShiftedOut : Prop :=
  ∀ (x y : RegIdx) (s : State),
    DecodesTo (0x8006 + 0x100 * x.val + 0x10 * y.val) (.shr x y) ∧
    DecodesTo (0x800E + 0x100 * x.val + 0x10 * y.val) (.shl x y) ∧
    (x ≠ 15 →
      (∃ t, exec (.shr x y) s = .next t ∧ (t.getV x).toNat = (s.getV x).toNat / 2 ∧
        (t.getV 15).toNat = (s.getV x).toNat % 2 ∧ t.pc = s.pc + 2 ∧ Frame { regs := [x, 15] } s t) ∧
      (∃ t, exec (.shl x y) s = .next t ∧ (t.getV x).toNat = 2 * (s.getV x).toNat % 256 ∧
        (t.getV 15).toNat = (s.getV x).toNat / 128 ∧ t.pc = s.pc + 2 ∧ Frame { regs := [x, 15] } s t))

/-- The SEQUENTIAL columns of the VF aliasing table of R134 for the rows that write VF first (spec decision D9, log entry
5): x = F, then y = F with x != F. -/
def Obligations.VfAsOperandReadsItsNewValue : Prop :=
  ∀ s : State,
    (∀ y : RegIdx, ∃ t, exec (.sub 15 y) s = .next t ∧
      (t.getV 15).toNat = (if y = 15 then 0 else
        (256 + (if (s.getV 15).toNat > (s.getV y).toNat then 1 else 0) - (s.getV y).toNat) % 256) ∧
      t.pc = s.pc + 2 ∧ Frame { regs := [15] } s t) ∧
    (∀ y : RegIdx, ∃ t, exec (.subn 15 y) s = .next t ∧
      (t.getV 15).toNat = (if y = 15 then 0 else
        (256 + (s.getV y).toNat - (if (s.getV y).toNat > (s.getV 15).toNat then 1 else 0)) % 256) ∧
      t.pc = s.pc + 2 ∧ Frame { regs := [15] } s t) ∧
    (∀ y : RegIdx, ∃ t, exec (.shr 15 y) s = .next t ∧ t.getV 15 = 0 ∧ t.pc = s.pc + 2 ∧
      Frame { regs := [15] } s t) ∧
    (∀ y : RegIdx, ∃ t, exec (.shl 15 y) s = .next t ∧ (t.getV 15).toNat = 2 * ((s.getV 15).toNat / 128) ∧
      t.pc = s.pc + 2 ∧ Frame { regs := [15] } s t) ∧
    (∀ x : RegIdx, x ≠ 15 → ∃ t, exec (.sub x 15) s = .next t ∧
      (t.getV 15).toNat = (if (s.getV x).toNat > (s.getV 15).toNat then 1 else 0) ∧
      (t.getV x).toNat = (256 + (s.getV x).toNat - (t.getV 15).toNat) % 256 ∧
      t.pc = s.pc + 2 ∧ Frame { regs := [x, 15] } s t) ∧
    (∀ x : RegIdx, x ≠ 15 → ∃ t, exec (.subn x 15) s = .next t ∧
      (t.getV 15).toNat = (if (s.getV 15).toNat > (s.getV x).toNat then 1 else 0) ∧
      (t.getV x).toNat = (256 + (t.getV 15).toNat - (s.getV x).toNat) % 256 ∧
      t.pc = s.pc + 2 ∧ Frame { regs := [x, 15] } s t)

/-- RND Vx, kk (R133; the draw is a free value, log entry 3): the byte the host holds on the rand port, which is used up; with
none held, the free byte of this draw, and the next draw takes another one. -/
def Obligations.RndMasksOneDraw : Prop :=
  ∀ (x : RegIdx) (kk : Byte) (s : State), DecodesTo (0xC000 + 0x100 * x.val + kk.toNat) (.rnd x kk) ∧
    (∀ b : Byte, s.randPort = some b → ∃ t, exec (.rnd x kk) s = .next t ∧
      t.getV x = b &&& kk ∧ t.randPort = none ∧ t.randDraws = s.randDraws ∧ t.pc = s.pc + 2 ∧
      Frame { regs := [x], random := true } s t) ∧
    (s.randPort = none → ∃ t, exec (.rnd x kk) s = .next t ∧
      t.getV x = Config.freeRand s.randDraws &&& kk ∧ t.randPort = none ∧ t.randDraws = s.randDraws + 1 ∧
      t.pc = s.pc + 2 ∧ Frame { regs := [x], random := true } s t)

/-! ## Index and memory (spec/42_index_memory.md) -/

/-- LD I, nnn and LD F, Vx (R151, R153): the glyph address is not masked. -/
def Obligations.LoadIndex : Prop :=
  (∀ (nnn : Addr12) (s : State), DecodesTo (0xA000 + nnn.toNat) (.ldI nnn) ∧
    ∃ t, exec (.ldI nnn) s = .next t ∧ t.i.toNat = nnn.toNat ∧ t.pc = s.pc + 2 ∧ Frame { index := true } s t) ∧
  (∀ (x : RegIdx) (s : State), DecodesTo (0xF029 + 0x100 * x.val) (.ldF x) ∧
    ∃ t, exec (.ldF x) s = .next t ∧ t.i.toNat = (s.getV x).toNat * 5 ∧ t.pc = s.pc + 2 ∧
      Frame { index := true } s t)

/-- ADD I, Vx (R152; spec decisions D10, D11; FX1E_VF open, log entry 1): I wraps at 2^16; VF is written exactly where FX1E_VF
holds, from the values before the instruction. -/
def Obligations.AddIndexUnderBothSettings : Prop :=
  ∀ (x : RegIdx) (s : State), DecodesTo (0xF01E + 0x100 * x.val) (.addI x) ∧
    ∃ t, exec (.addI x) s = .next t ∧ t.i.toNat = (s.i.toNat + (s.getV x).toNat) % 0x10000 ∧ t.pc = s.pc + 2 ∧
      (Config.fx1eVf = true → t.getV 15 = (if 0xFFF < s.i.toNat + (s.getV x).toNat then 1 else 0) ∧
        Frame { regs := [15], index := true } s t) ∧
      (Config.fx1eVf = false → Frame { index := true } s t)

/-- LD B, Vx (R154; spec decisions D3, D4, log entry 18): three digits at I, I + 1, I + 2, or fatal at the first address above
0xFFF with nothing written. -/
def Obligations.StoreBcdDigits : Prop :=
  ∀ (x : RegIdx) (s : State), s.mem.wf = true → DecodesTo (0xF033 + 0x100 * x.val) (.ldB x) ∧
    (s.i.toNat + 2 ≤ 0xFFF → ∃ t, exec (.ldB x) s = .next t ∧
      (t.byteAt (dataBase s)).toNat = (s.getV x).toNat / 100 ∧
      (t.byteAt (dataBase s + 1)).toNat = (s.getV x).toNat / 10 % 10 ∧
      (t.byteAt (dataBase s + 2)).toNat = (s.getV x).toNat % 10 ∧
      t.pc = s.pc + 2 ∧ Frame { bytes := addresses (dataBase s) 3 } s t) ∧
    (0xFFF < s.i.toNat + 2 → exec (.ldB x) s = .next (haltedWith s .outOfBoundsAccess
      (BitVec.ofNat 16 (0xF033 + 0x100 * x.val)) (BitVec.ofNat 16 (max s.i.toNat 0x1000))))

/-- LD [I], Vx (R155; spec decisions D3, D4, D12, log entries 5 and 18): V0..Vx at I..I+x with I unchanged, or fatal at the
first address above 0xFFF with nothing written. -/
def Obligations.StoreRegisterBlock : Prop :=
  ∀ (x : RegIdx) (s : State), s.mem.wf = true → DecodesTo (0xF055 + 0x100 * x.val) (.ldMemVx x) ∧
    (s.i.toNat + x.val ≤ 0xFFF → ∃ t, exec (.ldMemVx x) s = .next t ∧
      (∀ k : RegIdx, k.val ≤ x.val → t.byteAt (dataBase s + k.val) = s.getV k) ∧
      t.pc = s.pc + 2 ∧ Frame { bytes := addresses (dataBase s) (x.val + 1) } s t) ∧
    (0xFFF < s.i.toNat + x.val → exec (.ldMemVx x) s = .next (haltedWith s .outOfBoundsAccess
      (BitVec.ofNat 16 (0xF055 + 0x100 * x.val)) (BitVec.ofNat 16 (max s.i.toNat 0x1000))))

/-- LD Vx, [I] (R156; spec decisions D3, D4, D12, log entries 5 and 18): V0..Vx from I..I+x with I unchanged, or fatal with no
register written. -/
def Obligations.LoadRegisterBlock : Prop :=
  ∀ (x : RegIdx) (s : State), DecodesTo (0xF065 + 0x100 * x.val) (.ldVxMem x) ∧
    (s.i.toNat + x.val ≤ 0xFFF → ∃ t, exec (.ldVxMem x) s = .next t ∧
      (∀ k : RegIdx, k.val ≤ x.val → t.getV k = s.byteAt (dataBase s + k.val)) ∧
      t.pc = s.pc + 2 ∧ Frame { regs := (List.finRange 16).filter (· ≤ x) } s t) ∧
    (0xFFF < s.i.toNat + x.val → exec (.ldVxMem x) s = .next (haltedWith s .outOfBoundsAccess
      (BitVec.ofNat 16 (0xF065 + 0x100 * x.val)) (BitVec.ofNat 16 (max s.i.toNat 0x1000))))

/-- Self-modifying code needs no fence (R64): where the block of an Fx55 or the digits of an Fx33 cover the word after it, the
next step fetches the word as stored. -/
def Obligations.StoredWordIsFetchedNext : Prop :=
  ∀ (x : RegIdx) (s : State), Runs s → s.mem.wf = true →
    (decode (wordAtPc s) = .ok (.ldMemVx x) → s.i.toNat + x.val ≤ 0xFFF →
      ∀ k : RegIdx, k.val < x.val → s.i.toNat + k.val = s.pc.toNat + 2 →
        ∃ t, step s = .next t ∧ Runs t ∧ wordAtPc t = bigEndian (s.getV k) (s.getV (k + 1))) ∧
    (decode (wordAtPc s) = .ok (.ldB x) → s.i.toNat + 2 ≤ 0xFFF →
      (s.i.toNat = s.pc.toNat + 2 → ∃ t, step s = .next t ∧ Runs t ∧
        (wordAtPc t).toNat = 0x100 * ((s.getV x).toNat / 100) + (s.getV x).toNat / 10 % 10) ∧
      (s.i.toNat + 1 = s.pc.toNat + 2 → ∃ t, step s = .next t ∧ Runs t ∧
        (wordAtPc t).toNat = 0x100 * ((s.getV x).toNat / 10 % 10) + (s.getV x).toNat % 10))

/-! ## Display and sprites (spec/43_display_sprite.md) -/

/-- CLS (R173). -/
def Obligations.ClsClearsEveryPixel : Prop :=
  DecodesTo 0x00E0 .cls ∧ ∀ s : State, ∃ t, exec .cls s = .next t ∧ (∀ c r, t.pixelAt c r = false) ∧
    t.dirty = true ∧ t.pc = s.pc + 2 ∧ Frame { screen := true } s t

/-- DRW Vx, Vy, n with its bytes in range (R172, R174; spec decisions D8, D9, D19, log entries 5 and 23): every pixel of the
frame is XORed with the sprite, nothing wraps, VF is the collision, a coordinate taken from VF is 0. -/
def Obligations.DrwXorsTheSprite : Prop :=
  ∀ (x y : RegIdx) (n : Nibble) (s : State),
    DecodesTo (0xD000 + 0x100 * x.val + 0x10 * y.val + n.toNat) (.drw x y n) ∧
    (n = 0 ∨ s.i.toNat + n.toNat ≤ 0x1000 →
      let x0 := if x = 15 then 0 else (s.getV x).toNat
      let y0 := if y = 15 then 0 else (s.getV y).toNat
      let covers := spriteCovers x0 y0 n.toNat (fun k => s.byteAt (dataBase s + k))
      ∃ t, exec (.drw x y n) s = .next t ∧
        (∀ c r, c < 64 → r < 32 → t.pixelAt c r = (s.pixelAt c r ^^ covers c r)) ∧
        (t.getV 15 = 0 ∨ t.getV 15 = 1) ∧
        (t.getV 15 = 1 ↔ ∃ c r, c < 64 ∧ r < 32 ∧ covers c r = true ∧ s.pixelAt c r = true) ∧
        t.dirty = true ∧ t.pc = s.pc + 2 ∧ Frame { regs := [15], screen := true } s t)

/-- DRW with a byte out of range (R174; spec decisions D3, D4, log entry 18) is fatal: no pixel, VF or dirty change. -/
def Obligations.DrwOutOfRangeIsFatal : Prop :=
  ∀ (x y : RegIdx) (n : Nibble) (s : State), n ≠ 0 → 0x1000 < s.i.toNat + n.toNat →
    exec (.drw x y n) s = .next (haltedWith s .outOfBoundsAccess
      (BitVec.ofNat 16 (0xD000 + 0x100 * x.val + 0x10 * y.val + n.toNat)) (BitVec.ofNat 16 (max s.i.toNat 0x1000)))

/-- Drawing the same sprite twice (R172, R174; spec/95_test_vectors.md E5): the display is as before, and if the first draw
hit nothing the second reports a collision exactly when the sprite has a pixel in the frame. -/
def Obligations.DrawingTwiceRestoresTheDisplay : Prop :=
  ∀ (x y : RegIdx) (n : Nibble) (s : State), x ≠ 15 → y ≠ 15 → n = 0 ∨ s.i.toNat + n.toNat ≤ 0x1000 →
    ∃ t u, exec (.drw x y n) s = .next t ∧ exec (.drw x y n) t = .next u ∧ u.disp = s.disp ∧
      (t.getV 15 = 0 → (u.getV 15 = 1 ↔ ∃ c r, c < 64 ∧ r < 32 ∧
        spriteCovers (s.getV x).toNat (s.getV y).toNat n.toNat (fun k => s.byteAt (dataBase s + k)) c r = true))

/-! ## Keypad and timers (spec/44_keys_timers.md, spec/60_exceptions.md) -/

/-- SKP Vx and SKNP Vx (R190, R191; spec decision D7, log entry 19): the level of the named key, or fatal above 15. -/
def Obligations.KeySkipsReadTheKeyLevel : Prop :=
  ∀ (x : RegIdx) (s : State),
    DecodesTo (0xE09E + 0x100 * x.val) (.skp x) ∧ DecodesTo (0xE0A1 + 0x100 * x.val) (.sknp x) ∧
    (∀ k : Fin 16, (s.getV x).toNat = k.val →
      (∃ t, exec (.skp x) s = .next t ∧ t.pc = (if s.key[k] then s.pc + 4 else s.pc + 2) ∧ Frame {} s t) ∧
      (∃ t, exec (.sknp x) s = .next t ∧ t.pc = (if s.key[k] then s.pc + 2 else s.pc + 4) ∧ Frame {} s t)) ∧
    (15 < (s.getV x).toNat →
      exec (.skp x) s = .next (haltedWith s .keyIndexOutOfRange (BitVec.ofNat 16 (0xE09E + 0x100 * x.val))
        (BitVec.ofNat 16 (s.getV x).toNat)) ∧
      exec (.sknp x) s = .next (haltedWith s .keyIndexOutOfRange (BitVec.ofNat 16 (0xE0A1 + 0x100 * x.val))
        (BitVec.ofNat 16 (s.getV x).toNat)))

/-- LD Vx, DT, LD DT, Vx and LD ST, Vx (R192, R194, R195). -/
def Obligations.TimerMoves : Prop :=
  ∀ (x : RegIdx) (s : State),
    DecodesTo (0xF007 + 0x100 * x.val) (.ldVxDt x) ∧ DecodesTo (0xF015 + 0x100 * x.val) (.ldDtVx x) ∧
    DecodesTo (0xF018 + 0x100 * x.val) (.ldStVx x) ∧
    (∃ t, exec (.ldVxDt x) s = .next t ∧ t.getV x = s.dt ∧ t.pc = s.pc + 2 ∧ Frame { regs := [x] } s t) ∧
    (∃ t, exec (.ldDtVx x) s = .next t ∧ t.dt = s.getV x ∧ t.pc = s.pc + 2 ∧ Frame { delay := true } s t) ∧
    (∃ t, exec (.ldStVx x) s = .next t ∧ t.st = s.getV x ∧ (tone t = true ↔ s.getV x ≠ 0) ∧ t.pc = s.pc + 2 ∧
      Frame { sound := true } s t)

/-- LD Vx, K (R193): with no key pressed nothing at all changes and the step replies WAITING; else the highest pressed index
wins. -/
def Obligations.KeyWaitPollsTheHighestKey : Prop :=
  ∀ (x : RegIdx) (s : State), DecodesTo (0xF00A + 0x100 * x.val) (.ldVxK x) ∧
    ((∀ j : Fin 16, s.key[j] = false) → exec (.ldVxK x) s = .next s ∧
      (Runs s → decode (wordAtPc s) = .ok (.ldVxK x) → step s = .next s ∧ stepReply s = .waiting)) ∧
    (∀ j : Fin 16, s.key[j] = true → (∀ k : Fin 16, j < k → s.key[k] = false) →
      ∃ t, exec (.ldVxK x) s = .next t ∧ (t.getV x).toNat = j.val ∧ t.pc = s.pc + 2 ∧ Frame { regs := [x] } s t)

/-- tick (R220): "decrements each counter by 1 if currently >0; never negative", and writes nothing else. -/
def Obligations.TickCountsBothTimersDown : Prop :=
  ∀ s : State, ∃ d e : Byte, tick s = { s with dt := d, st := e } ∧
    d.toNat = s.dt.toNat - 1 ∧ e.toNat = s.st.toNat - 1

/-- N ticks leave max(T - N, 0) (R222). -/
def Obligations.TicksNeverGoNegative : Prop :=
  ∀ (n : Nat) (s : State), (Nat.iterate tick n s).dt.toNat = s.dt.toNat - n ∧
    (Nat.iterate tick n s).st.toNat = s.st.toNat - n

/-- Between two reads of DT with no Fx15 and no reset between them, DT does not grow (R246): no other transaction of the host
increases it. -/
def Obligations.DelayTimerOnlyGrowsByFx15 : Prop :=
  ∀ (h h' : Session) (tx : Transaction), h.apply tx = .next h' → tx ≠ .reset →
    ((∃ b, tx = .step b) → ∀ x, stepInstr h.machine ≠ some (.ldDtVx x)) →
    h'.machine.dt.toNat ≤ h.machine.dt.toNat

/-! ## The host's transactions (spec/60_exceptions.md R225-R227, spec/20_memory.md R67) -/

/-- tick, key_set and dirty_clr reach only their own device, halted or not (R214, R220, R225, R226; spec decisions D6, D24, log
entry 20), and are open at any time (R227). That they leave the time for loads open is the model's choice (log entry 11). -/
def Obligations.HostDeviceTransactions : Prop :=
  ∀ h : Session,
    (∃ h', h.apply .tick = .next h' ∧ h'.loading = h.loading ∧ h'.machine = tick h.machine ∧
      Frame { delay := true, sound := true } h.machine h'.machine ∧ h'.machine.pc = h.machine.pc) ∧
    (∀ m, ∃ h', h.apply (.keySet m) = .next h' ∧ h'.loading = h.loading ∧
      (∀ k : Fin 16, h'.machine.key[k] = m.getLsbD k.val) ∧
      h'.machine = { h.machine with key := h'.machine.key }) ∧
    (∃ h', h.apply .dirtyClr = .next h' ∧ h'.loading = h.loading ∧ h'.machine.dirty = false ∧
      h'.machine = { h.machine with dirty := false })

/-- Construction and the reset transaction, from every session, give every piece of state its reset value (R240, R241). -/
def Obligations.ResetRebuildsEveryEntity : Prop :=
  ResetValues State.reset ∧ Session.start.machine = State.reset ∧
  ∀ h : Session, ∃ h', h.apply .reset = .next h' ∧ h'.machine = resetMachine h.machine ∧ ResetValues h'.machine

/-- The loads (R67, R227; spec decision D21, log entry 11), of a whole image and of one byte: while loads are open, what fits in
0x200-0xFFF stands verbatim and nothing else changes, and what does not fit is refused whole. A reset opens them, and the first
step ends them: after it every load is refused. -/
def Obligations.RomLoadIsVerbatimOrRefused : Prop :=
  Session.start.loading = true ∧
  ∀ h : Session,
    (∃ h', h.apply .reset = .next h' ∧ h'.loading = true) ∧
    (∀ b h', h.apply (.step b) = .next h' → h'.loading = false) ∧
    (∀ image : List Byte,
      (h.loading = true → h.machine.mem.wf = true → image.length ≤ 3584 →
        ∃ h', h.apply (.loadRom image) = .next h' ∧ h'.loading = true ∧
          (∀ (k : Nat) (hk : k < image.length), h'.machine.byteAt (0x200 + k) = image[k]) ∧
          (∀ a, a < 0x200 ∨ 0x200 + image.length ≤ a → h'.machine.byteAt a = h.machine.byteAt a) ∧
          h'.machine = { h.machine with mem := h'.machine.mem }) ∧
      (h.loading = true → 3584 < image.length → h.apply (.loadRom image) = .refused .romTooLong) ∧
      (h.loading = false → h.apply (.loadRom image) = .refused .loadAfterFirstStep)) ∧
    (∀ (k : Nat) (b : Byte),
      (h.loading = true → h.machine.mem.wf = true → k < 3584 →
        ∃ h', h.apply (.load k b) = .next h' ∧ h'.loading = true ∧ h'.machine.byteAt (0x200 + k) = b ∧
          (∀ a, a ≠ 0x200 + k → h'.machine.byteAt a = h.machine.byteAt a) ∧
          h'.machine = { h.machine with mem := h'.machine.mem }) ∧
      (h.loading = true → 3584 ≤ k → h.apply (.load k b) = .refused .romTooLong) ∧
      (h.loading = false → h.apply (.load k b) = .refused .loadAfterFirstStep))

/-- "A ROM of L bytes is L such writes, k = 0..L-1" (R67): loading an image is loading its bytes one by one. -/
def Obligations.RomLoadIsItsByteLoads : Prop :=
  ∀ (h : Session) (image : List Byte), h.loading = true → image.length ≤ 3584 →
    h.run (image.zipIdx.map fun e => .load e.2 e.1) = h.apply (.loadRom image)

/-! ## Fatal conditions (spec/60_exceptions.md) -/

/-- Faults are precise (R212, R213, R37; spec decisions D4, D5): the step that halts the machine changes only the fault status,
which names a cause and the PC of the instruction, and its reply is FATAL. -/
def Obligations.FatalStepWritesOnlyTheFaultStatus : Prop :=
  ∀ s t : State, step s = .next t → s.fault.halted = false → t.fault.halted = true →
    (∃ cause word addr, cause ≠ .none ∧ t = haltedWith s cause word addr ∧
      (s.pc.toNat ≤ 0xFFE → word = wordAtPc s)) ∧ stepReply s = .fatal ∧ stepLog s = none

/-- A halted machine stays as it is under every step, which replies HALTED and logs nothing; only reset clears `halted` (R214; spec
decision D6, log entry 20). -/
def Obligations.OnlyResetLeavesHalted : Prop :=
  (∀ s : State, s.fault.halted = true → step s = .next s ∧ stepReply s = .halted ∧ stepLog s = none) ∧
  (∀ (h h' : Session) (tx : Transaction), h.machine.fault.halted = true → h.apply tx = .next h' → tx ≠ .reset →
    h'.machine.fault = h.machine.fault) ∧
  (∀ h h' : Session, h.apply .reset = .next h' → h'.machine.fault.halted = false)

/-- The reply of a step (R71; log entry 10): HALTED, FATAL, WAITING and EXECUTED each mean what R71 says. -/
def Obligations.ReplySaysWhatTheStepDid : Prop :=
  ∀ s t : State, step s = .next t →
    (stepReply s = .halted ↔ s.fault.halted = true) ∧
    (stepReply s = .fatal ↔ s.fault.halted = false ∧ t.fault.halted = true) ∧
    (stepReply s = .waiting ↔ (∃ x, stepInstr s = some (.ldVxK x)) ∧ ∀ k : Fin 16, s.key[k] = false) ∧
    (stepReply s = .waiting → t = s) ∧
    (stepReply s = .executed → t.fault = s.fault)

/-- The IllegalOpcode event (R217; spec decision D20, log entry 10): exactly the steps of SYS and of illegal words emit it,
with the instruction's address and word. -/
def Obligations.LogEventsAreSysAndIllegalWords : Prop :=
  ∀ (s : State) (e : LogEvent), stepLog s = some e ↔
    Runs s ∧ e = { pc := s.pc, word := wordAtPc s } ∧
    (isSysWord (wordAtPc s) = true ∨ isIllegalWord (wordAtPc s) = true)

/-! ## Whole-machine rules (spec/10_state.md) -/

/-- The invariant holds after reset. -/
def Obligations.ResetMeetsTheInvariant : Prop := Inv State.reset

/-- Every step keeps the invariant: memory in canonical form, PC at most 0x10FE and stack entries fetchable (R25), a
consistent fault status (R33). -/
def Obligations.EveryStepKeepsTheInvariant : Prop :=
  ∀ s t : State, Inv s → step s = .next t → Inv t

/-- Every transaction of the host keeps the invariant (R227). -/
def Obligations.EveryTransactionKeepsTheInvariant : Prop :=
  ∀ (h h' : Session) (tx : Transaction), Inv h.machine → h.apply tx = .next h' → Inv h'.machine

/-- How PC changes (R23, R100): by 2, by 4 in a skip, to the target of a jump, call or return, or not at all in a wait or a
fatal condition. -/
def Obligations.PcChangesInFourWays : Prop :=
  ∀ (i : Instr) (s t : State), exec i s = .next t →
    t.pc = s.pc + 2 ∨ (isSkip i = true ∧ t.pc = s.pc + 4) ∨
    (∃ nnn, (i = .jp nnn ∨ i = .call nnn) ∧ t.pc.toNat = nnn.toNat) ∨
    (∃ nnn, i = .jpV0 nnn ∧ t.pc.toNat = nnn.toNat + (s.getV 0).toNat) ∨
    (i = .ret ∧ ∃ k : Fin 16, s.sp.val = k.val + 1 ∧ t.pc = s.stack[k] + 2) ∨
    (t = s ∧ ∃ x, i = .ldVxK x) ∨
    (∃ cause addr, t = haltedWith s cause (encode i) addr)

/-- Each instruction writes only the registers of its row of R22 (R21, R22). -/
def Obligations.RegistersWrittenAreThoseListed : Prop :=
  ∀ (i : Instr) (s t : State) (r : RegIdx), exec i s = .next t → r ∉ regWrites i → t.getV r = s.getV r

/-- Only CALL writes a stack entry, and only CALL and RET change SP, by one (R28; spec decision D28). -/
def Obligations.OnlyCallAndRetReachTheStack : Prop :=
  ∀ (i : Instr) (s t : State), exec i s = .next t →
    ((∀ nnn, i ≠ .call nnn) → t.stack = s.stack) ∧
    ((∀ nnn, i ≠ .call nnn) → i ≠ .ret → t.sp = s.sp) ∧
    (t.sp.val = s.sp.val ∨ t.sp.val = s.sp.val + 1 ∨ t.sp.val + 1 = s.sp.val)

/-- The display is "mutated only by clear and XOR-sprite-draw operations"; 00E0 and Dxyn set dirty whenever they execute and
no other instruction writes it (R30, R31, R175; spec decision D19). -/
def Obligations.OnlyClsAndDrwReachTheDisplay : Prop :=
  ∀ (i : Instr) (s t : State), exec i s = .next t →
    (i ≠ .cls → (∀ x y n, i ≠ .drw x y n) → t.disp = s.disp ∧ t.dirty = s.dirty) ∧
    (i = .cls ∨ (∃ x y n, i = .drw x y n) → t.fault = s.fault → s.fault.halted = false → t.dirty = true)

/-- Only Fx33 and Fx55 change memory, and only the bytes they store (R58, R59). -/
def Obligations.OnlyTheStoresChangeMemory : Prop :=
  ∀ (i : Instr) (s t : State) (a : Nat), s.mem.wf = true → exec i s = .next t →
    t.byteAt a ≠ s.byteAt a →
    (∃ x, i = .ldB x ∧ a ∈ addresses (dataBase s) 3) ∨
    (∃ x : RegIdx, i = .ldMemVx x ∧ a ∈ addresses (dataBase s) (x.val + 1))

/-- Only Annn, Fx1E and Fx29 write I, with LDST_INCREMENTS_I = false (R27; spec decision D12, log entry 5). -/
def Obligations.OnlyIndexInstructionsWriteI : Prop :=
  ∀ (i : Instr) (s t : State), exec i s = .next t → t.i ≠ s.i →
    (∃ nnn, i = .ldI nnn) ∨ (∃ x, i = .addI x) ∨ (∃ x, i = .ldF x)

/-- Of the instructions only Fx15 writes DT, only Fx18 writes ST, and none writes a key (R29, R32). -/
def Obligations.TimersAndKeysHaveTheirOwnWriters : Prop :=
  ∀ (i : Instr) (s t : State), exec i s = .next t →
    ((∀ x, i ≠ .ldDtVx x) → t.dt = s.dt) ∧ ((∀ x, i ≠ .ldStVx x) → t.st = s.st) ∧ t.key = s.key

/-- "No instruction reads ST" (R29) and no instruction reads dirty (R31): what a step writes to each of them, if it writes it at
all, and everything else it does, is the same whatever the two hold. -/
def Obligations.StepsDoNotReadSoundOrDirty : Prop :=
  ∀ s t : State, step s = .next t →
    ∃ (dirtyWritten : Option Bool) (soundWritten : Option Byte), ∀ (d : Bool) (e : Byte),
      step { s with dirty := d, st := e } =
        .next { t with dirty := dirtyWritten.getD d, st := soundWritten.getD e }

/-! ## The step transaction (spec/60_exceptions.md R227) -/

/-- The step transaction and its rand port (R35, R133, R227; the byte as part of the transaction is log entry 3, the end of the
time for loads log entry 11): the step runs with the byte on the port and leaves nothing on it; only Cxkk samples it. -/
def Obligations.StepTransactionSamplesRandOnlyForRnd : Prop :=
  ∀ (h : Session) (b : Byte),
    (∃ t, step { h.machine with randPort := some b } = .next t ∧
      h.apply (.step b) = .next { machine := { t with randPort := none }, loading := false }) ∧
    (∀ x kk, stepInstr h.machine = some (.rnd x kk) → ∃ h', h.apply (.step b) = .next h' ∧
      h'.machine.getV x = b &&& kk ∧ h'.machine.pc = h.machine.pc + 2 ∧ h'.machine.randDraws = h.machine.randDraws) ∧
    ((∀ x kk, stepInstr h.machine ≠ some (.rnd x kk)) → ∀ c, h.apply (.step c) = h.apply (.step b))
end

