-- ==== Sys2Proof/Laws/Encoding.lean ====
section
/-! SUPPORT. The fields of a word built by one of the formats of spec/30_encoding.md R74, one lemma per field and format, and
a word rebuilt from its fields. Each follows from the fields and the formats as numbers. -/

namespace Sys2Proof

/-! ## Fields and formats as numbers -/

/-- Concatenation puts its first part in the high bits (spec/00_scope.md R10). -/
theorem toNat_concat {m n : Nat} (a : BitVec m) (b : BitVec n) : (a ++ b).toNat = a.toNat * 2 ^ n + b.toNat := by
  rw [BitVec.toNat_append, ← Nat.shiftLeft_add_eq_or_of_lt b.isLt, Nat.shiftLeft_eq]

theorem toNat_wordNNN (f : Nibble) (nnn : Addr12) : (wordNNN f nnn).toNat = f.toNat * 4096 + nnn.toNat :=
  toNat_concat f nnn

theorem toNat_wordXKK (f : Nibble) (x : RegIdx) (kk : Byte) :
    (wordXKK f x kk).toNat = f.toNat * 4096 + (x.val * 256 + kk.toNat) := by
  rw [wordXKK, toNat_wordNNN]
  exact congrArg _ (toNat_concat (BitVec.ofFin (w := 4) x) kk)

theorem toNat_wordXYN (f : Nibble) (x y : RegIdx) (n : Nibble) :
    (wordXYN f x y n).toNat = f.toNat * 4096 + (x.val * 256 + (y.val * 16 + n.toNat)) := by
  rw [wordXYN, toNat_wordXKK]
  exact congrArg (fun k => f.toNat * 4096 + (x.val * 256 + k)) (toNat_concat (BitVec.ofFin (w := 4) y) n)

theorem toNat_bigEndian (hi lo : Byte) : (bigEndian hi lo).toNat = hi.toNat * 256 + lo.toNat := toNat_concat hi lo

theorem toNat_fieldF (w : Word) : (fieldF w).toNat = w.toNat / 4096 % 16 := by
  simp [fieldF, Nat.shiftRight_eq_div_pow]

theorem val_fieldX (w : Word) : (fieldX w).val = w.toNat / 256 % 16 := by
  simp [fieldX, Nat.shiftRight_eq_div_pow]

theorem val_fieldY (w : Word) : (fieldY w).val = w.toNat / 16 % 16 := by
  simp [fieldY, Nat.shiftRight_eq_div_pow]

theorem toNat_fieldN (w : Word) : (fieldN w).toNat = w.toNat % 16 := by simp [fieldN]

theorem toNat_fieldKK (w : Word) : (fieldKK w).toNat = w.toNat % 256 := by simp [fieldKK]

theorem toNat_fieldNNN (w : Word) : (fieldNNN w).toNat = w.toNat % 4096 := by simp [fieldNNN]

/-! ## The fields of a built word -/

@[simp] theorem fieldF_wordNNN (f : Nibble) (nnn : Addr12) : fieldF (wordNNN f nnn) = f := by
  apply BitVec.eq_of_toNat_eq
  rw [toNat_fieldF, toNat_wordNNN]
  omega

@[simp] theorem fieldNNN_wordNNN (f : Nibble) (nnn : Addr12) : fieldNNN (wordNNN f nnn) = nnn := by
  apply BitVec.eq_of_toNat_eq
  rw [toNat_fieldNNN, toNat_wordNNN]
  omega

@[simp] theorem fieldF_wordXKK (f : Nibble) (x : RegIdx) (kk : Byte) : fieldF (wordXKK f x kk) = f :=
  fieldF_wordNNN f _

@[simp] theorem fieldX_wordXKK (f : Nibble) (x : RegIdx) (kk : Byte) : fieldX (wordXKK f x kk) = x := by
  apply Fin.ext
  rw [val_fieldX, toNat_wordXKK]
  omega

@[simp] theorem fieldKK_wordXKK (f : Nibble) (x : RegIdx) (kk : Byte) : fieldKK (wordXKK f x kk) = kk := by
  apply BitVec.eq_of_toNat_eq
  rw [toNat_fieldKK, toNat_wordXKK]
  omega

@[simp] theorem fieldF_wordXYN (f : Nibble) (x y : RegIdx) (n : Nibble) : fieldF (wordXYN f x y n) = f :=
  fieldF_wordXKK f x _

@[simp] theorem fieldX_wordXYN (f : Nibble) (x y : RegIdx) (n : Nibble) : fieldX (wordXYN f x y n) = x :=
  fieldX_wordXKK f x _

@[simp] theorem fieldY_wordXYN (f : Nibble) (x y : RegIdx) (n : Nibble) : fieldY (wordXYN f x y n) = y := by
  apply Fin.ext
  rw [val_fieldY, toNat_wordXYN]
  omega

@[simp] theorem fieldN_wordXYN (f : Nibble) (x y : RegIdx) (n : Nibble) : fieldN (wordXYN f x y n) = n := by
  apply BitVec.eq_of_toNat_eq
  rw [toNat_fieldN, toNat_wordXYN]
  omega

/-! ## A word rebuilt from its fields -/

theorem wordNNN_fields (w : Word) : wordNNN (fieldF w) (fieldNNN w) = w := by
  apply BitVec.eq_of_toNat_eq
  rw [toNat_wordNNN, toNat_fieldF, toNat_fieldNNN]
  omega

theorem wordXKK_fields (w : Word) : wordXKK (fieldF w) (fieldX w) (fieldKK w) = w := by
  apply BitVec.eq_of_toNat_eq
  rw [toNat_wordXKK, toNat_fieldF, val_fieldX, toNat_fieldKK]
  omega

theorem wordXYN_fields (w : Word) : wordXYN (fieldF w) (fieldX w) (fieldY w) (fieldN w) = w := by
  apply BitVec.eq_of_toNat_eq
  rw [toNat_wordXYN, toNat_fieldF, val_fieldX, val_fieldY, toNat_fieldN]
  omega

/-! ## A word under the masks of spec/opcode_table.json (R76) -/

/-- The mask of formats NNN and XKK keeps the family. -/
theorem mask_family (w : Word) (f : Nibble) : w &&& 0xF000 = wordNNN f 0 ↔ fieldF w = f := by
  have h : w &&& 0xF000#16 = wordNNN (fieldF w) 0 := by
    apply BitVec.eq_of_getLsbD_eq
    intro i hi
    simp only [BitVec.getLsbD_and, BitVec.getLsbD_append, BitVec.getLsbD_extractLsb', wordNNN, fieldF]
    interval_cases i <;> simp
  simp only [BitVec.ofNat_eq_ofNat] at h ⊢
  rw [h]
  exact ⟨fun e => by simpa using congrArg fieldF e, fun e => by rw [e]⟩

/-- The mask of formats XY0 and XYS keeps the family and n. -/
theorem mask_family_n (w : Word) (f n : Nibble) :
    w &&& 0xF00F = wordXYN f 0 0 n ↔ fieldF w = f ∧ fieldN w = n := by
  have h : w &&& 0xF00F#16 = wordXYN (fieldF w) 0 0 (fieldN w) := by
    apply BitVec.eq_of_getLsbD_eq
    intro i hi
    simp only [BitVec.getLsbD_and, BitVec.getLsbD_append, BitVec.getLsbD_extractLsb', wordXYN, wordXKK, wordNNN,
      fieldF, fieldN]
    interval_cases i <;> simp
  simp only [BitVec.ofNat_eq_ofNat] at h ⊢
  rw [h]
  exact ⟨fun e => ⟨by simpa using congrArg fieldF e, by simpa using congrArg fieldN e⟩, fun e => by rw [e.1, e.2]⟩

/-- The mask of format XSS keeps the family and kk. -/
theorem mask_family_kk (w : Word) (f : Nibble) (kk : Byte) :
    w &&& 0xF0FF = wordXKK f 0 kk ↔ fieldF w = f ∧ fieldKK w = kk := by
  have h : w &&& 0xF0FF#16 = wordXKK (fieldF w) 0 (fieldKK w) := by
    apply BitVec.eq_of_getLsbD_eq
    intro i hi
    simp only [BitVec.getLsbD_and, BitVec.getLsbD_append, BitVec.getLsbD_extractLsb', wordXKK, wordNNN, fieldF,
      fieldKK]
    interval_cases i <;> simp
  simp only [BitVec.ofNat_eq_ofNat] at h ⊢
  rw [h]
  exact ⟨fun e => ⟨by simpa using congrArg fieldF e, by simpa using congrArg fieldKK e⟩, fun e => by rw [e.1, e.2]⟩

/-! ## The bytes of a word -/

/-- A word's two bytes, joined again, are the word (R54). -/
theorem bigEndian_wordBytes (w : Word) : bigEndian (w.extractLsb' 8 8) (w.extractLsb' 0 8) = w := by
  apply BitVec.eq_of_toNat_eq
  rw [toNat_bigEndian]
  simp [Nat.shiftRight_eq_div_pow]
  omega

/-- The decoder on a word's bytes is the decoder on the word. -/
theorem decodeBytes_wordBytes (w : Word) (rest : List Byte) :
    decodeBytes (wordBytes w ++ rest) = (decode w).map fun i => (i, rest) := by
  simp only [wordBytes, List.cons_append, List.nil_append, decodeBytes, bigEndian_wordBytes]

end Sys2Proof
end

