-- ==== Sys2Proof/Laws/State.lean ====
section
/-! SUPPORT. One lemma per field per update of the state, true by rfl, so that no later proof unfolds a record update; then
what the register accessors read after each update. -/

namespace Sys2Proof.Machine

variable (s : State)

/-! ## setV -/

@[simp] theorem State.setV_v (r : RegIdx) (b : Byte) : (s.setV r b).v = s.v.set r b := rfl
@[simp] theorem State.setV_i (r : RegIdx) (b : Byte) : (s.setV r b).i = s.i := rfl
@[simp] theorem State.setV_pc (r : RegIdx) (b : Byte) : (s.setV r b).pc = s.pc := rfl
@[simp] theorem State.setV_sp (r : RegIdx) (b : Byte) : (s.setV r b).sp = s.sp := rfl
@[simp] theorem State.setV_stack (r : RegIdx) (b : Byte) : (s.setV r b).stack = s.stack := rfl
@[simp] theorem State.setV_dt (r : RegIdx) (b : Byte) : (s.setV r b).dt = s.dt := rfl
@[simp] theorem State.setV_st (r : RegIdx) (b : Byte) : (s.setV r b).st = s.st := rfl
@[simp] theorem State.setV_disp (r : RegIdx) (b : Byte) : (s.setV r b).disp = s.disp := rfl
@[simp] theorem State.setV_dirty (r : RegIdx) (b : Byte) : (s.setV r b).dirty = s.dirty := rfl
@[simp] theorem State.setV_key (r : RegIdx) (b : Byte) : (s.setV r b).key = s.key := rfl
@[simp] theorem State.setV_mem (r : RegIdx) (b : Byte) : (s.setV r b).mem = s.mem := rfl
@[simp] theorem State.setV_fault (r : RegIdx) (b : Byte) : (s.setV r b).fault = s.fault := rfl
@[simp] theorem State.setV_randPort (r : RegIdx) (b : Byte) : (s.setV r b).randPort = s.randPort := rfl
@[simp] theorem State.setV_randDraws (r : RegIdx) (b : Byte) : (s.setV r b).randDraws = s.randDraws := rfl

/-! ## setVF -/

@[simp] theorem State.setVF_v (b : Byte) : (s.setVF b).v = s.v.set RegIdx.vf b := rfl
@[simp] theorem State.setVF_i (b : Byte) : (s.setVF b).i = s.i := rfl
@[simp] theorem State.setVF_pc (b : Byte) : (s.setVF b).pc = s.pc := rfl
@[simp] theorem State.setVF_sp (b : Byte) : (s.setVF b).sp = s.sp := rfl
@[simp] theorem State.setVF_stack (b : Byte) : (s.setVF b).stack = s.stack := rfl
@[simp] theorem State.setVF_dt (b : Byte) : (s.setVF b).dt = s.dt := rfl
@[simp] theorem State.setVF_st (b : Byte) : (s.setVF b).st = s.st := rfl
@[simp] theorem State.setVF_disp (b : Byte) : (s.setVF b).disp = s.disp := rfl
@[simp] theorem State.setVF_dirty (b : Byte) : (s.setVF b).dirty = s.dirty := rfl
@[simp] theorem State.setVF_key (b : Byte) : (s.setVF b).key = s.key := rfl
@[simp] theorem State.setVF_mem (b : Byte) : (s.setVF b).mem = s.mem := rfl
@[simp] theorem State.setVF_fault (b : Byte) : (s.setVF b).fault = s.fault := rfl
@[simp] theorem State.setVF_randPort (b : Byte) : (s.setVF b).randPort = s.randPort := rfl
@[simp] theorem State.setVF_randDraws (b : Byte) : (s.setVF b).randDraws = s.randDraws := rfl

/-! ## setI -/

@[simp] theorem State.setI_v (a : Word) : (s.setI a).v = s.v := rfl
@[simp] theorem State.setI_i (a : Word) : (s.setI a).i = a := rfl
@[simp] theorem State.setI_pc (a : Word) : (s.setI a).pc = s.pc := rfl
@[simp] theorem State.setI_sp (a : Word) : (s.setI a).sp = s.sp := rfl
@[simp] theorem State.setI_stack (a : Word) : (s.setI a).stack = s.stack := rfl
@[simp] theorem State.setI_dt (a : Word) : (s.setI a).dt = s.dt := rfl
@[simp] theorem State.setI_st (a : Word) : (s.setI a).st = s.st := rfl
@[simp] theorem State.setI_disp (a : Word) : (s.setI a).disp = s.disp := rfl
@[simp] theorem State.setI_dirty (a : Word) : (s.setI a).dirty = s.dirty := rfl
@[simp] theorem State.setI_key (a : Word) : (s.setI a).key = s.key := rfl
@[simp] theorem State.setI_mem (a : Word) : (s.setI a).mem = s.mem := rfl
@[simp] theorem State.setI_fault (a : Word) : (s.setI a).fault = s.fault := rfl
@[simp] theorem State.setI_randPort (a : Word) : (s.setI a).randPort = s.randPort := rfl
@[simp] theorem State.setI_randDraws (a : Word) : (s.setI a).randDraws = s.randDraws := rfl

/-! ## setPc -/

@[simp] theorem State.setPc_v (a : Word) : (s.setPc a).v = s.v := rfl
@[simp] theorem State.setPc_i (a : Word) : (s.setPc a).i = s.i := rfl
@[simp] theorem State.setPc_pc (a : Word) : (s.setPc a).pc = a := rfl
@[simp] theorem State.setPc_sp (a : Word) : (s.setPc a).sp = s.sp := rfl
@[simp] theorem State.setPc_stack (a : Word) : (s.setPc a).stack = s.stack := rfl
@[simp] theorem State.setPc_dt (a : Word) : (s.setPc a).dt = s.dt := rfl
@[simp] theorem State.setPc_st (a : Word) : (s.setPc a).st = s.st := rfl
@[simp] theorem State.setPc_disp (a : Word) : (s.setPc a).disp = s.disp := rfl
@[simp] theorem State.setPc_dirty (a : Word) : (s.setPc a).dirty = s.dirty := rfl
@[simp] theorem State.setPc_key (a : Word) : (s.setPc a).key = s.key := rfl
@[simp] theorem State.setPc_mem (a : Word) : (s.setPc a).mem = s.mem := rfl
@[simp] theorem State.setPc_fault (a : Word) : (s.setPc a).fault = s.fault := rfl
@[simp] theorem State.setPc_randPort (a : Word) : (s.setPc a).randPort = s.randPort := rfl
@[simp] theorem State.setPc_randDraws (a : Word) : (s.setPc a).randDraws = s.randDraws := rfl

/-! ## setDt -/

@[simp] theorem State.setDt_v (b : Byte) : (s.setDt b).v = s.v := rfl
@[simp] theorem State.setDt_i (b : Byte) : (s.setDt b).i = s.i := rfl
@[simp] theorem State.setDt_pc (b : Byte) : (s.setDt b).pc = s.pc := rfl
@[simp] theorem State.setDt_sp (b : Byte) : (s.setDt b).sp = s.sp := rfl
@[simp] theorem State.setDt_stack (b : Byte) : (s.setDt b).stack = s.stack := rfl
@[simp] theorem State.setDt_dt (b : Byte) : (s.setDt b).dt = b := rfl
@[simp] theorem State.setDt_st (b : Byte) : (s.setDt b).st = s.st := rfl
@[simp] theorem State.setDt_disp (b : Byte) : (s.setDt b).disp = s.disp := rfl
@[simp] theorem State.setDt_dirty (b : Byte) : (s.setDt b).dirty = s.dirty := rfl
@[simp] theorem State.setDt_key (b : Byte) : (s.setDt b).key = s.key := rfl
@[simp] theorem State.setDt_mem (b : Byte) : (s.setDt b).mem = s.mem := rfl
@[simp] theorem State.setDt_fault (b : Byte) : (s.setDt b).fault = s.fault := rfl
@[simp] theorem State.setDt_randPort (b : Byte) : (s.setDt b).randPort = s.randPort := rfl
@[simp] theorem State.setDt_randDraws (b : Byte) : (s.setDt b).randDraws = s.randDraws := rfl

/-! ## setSt -/

@[simp] theorem State.setSt_v (b : Byte) : (s.setSt b).v = s.v := rfl
@[simp] theorem State.setSt_i (b : Byte) : (s.setSt b).i = s.i := rfl
@[simp] theorem State.setSt_pc (b : Byte) : (s.setSt b).pc = s.pc := rfl
@[simp] theorem State.setSt_sp (b : Byte) : (s.setSt b).sp = s.sp := rfl
@[simp] theorem State.setSt_stack (b : Byte) : (s.setSt b).stack = s.stack := rfl
@[simp] theorem State.setSt_dt (b : Byte) : (s.setSt b).dt = s.dt := rfl
@[simp] theorem State.setSt_st (b : Byte) : (s.setSt b).st = b := rfl
@[simp] theorem State.setSt_disp (b : Byte) : (s.setSt b).disp = s.disp := rfl
@[simp] theorem State.setSt_dirty (b : Byte) : (s.setSt b).dirty = s.dirty := rfl
@[simp] theorem State.setSt_key (b : Byte) : (s.setSt b).key = s.key := rfl
@[simp] theorem State.setSt_mem (b : Byte) : (s.setSt b).mem = s.mem := rfl
@[simp] theorem State.setSt_fault (b : Byte) : (s.setSt b).fault = s.fault := rfl
@[simp] theorem State.setSt_randPort (b : Byte) : (s.setSt b).randPort = s.randPort := rfl
@[simp] theorem State.setSt_randDraws (b : Byte) : (s.setSt b).randDraws = s.randDraws := rfl

/-! ## setMem -/

@[simp] theorem State.setMem_v (m : Memory) : (s.setMem m).v = s.v := rfl
@[simp] theorem State.setMem_i (m : Memory) : (s.setMem m).i = s.i := rfl
@[simp] theorem State.setMem_pc (m : Memory) : (s.setMem m).pc = s.pc := rfl
@[simp] theorem State.setMem_sp (m : Memory) : (s.setMem m).sp = s.sp := rfl
@[simp] theorem State.setMem_stack (m : Memory) : (s.setMem m).stack = s.stack := rfl
@[simp] theorem State.setMem_dt (m : Memory) : (s.setMem m).dt = s.dt := rfl
@[simp] theorem State.setMem_st (m : Memory) : (s.setMem m).st = s.st := rfl
@[simp] theorem State.setMem_disp (m : Memory) : (s.setMem m).disp = s.disp := rfl
@[simp] theorem State.setMem_dirty (m : Memory) : (s.setMem m).dirty = s.dirty := rfl
@[simp] theorem State.setMem_key (m : Memory) : (s.setMem m).key = s.key := rfl
@[simp] theorem State.setMem_mem (m : Memory) : (s.setMem m).mem = m := rfl
@[simp] theorem State.setMem_fault (m : Memory) : (s.setMem m).fault = s.fault := rfl
@[simp] theorem State.setMem_randPort (m : Memory) : (s.setMem m).randPort = s.randPort := rfl
@[simp] theorem State.setMem_randDraws (m : Memory) : (s.setMem m).randDraws = s.randDraws := rfl

/-! ## setDisp -/

@[simp] theorem State.setDisp_v (d : Display) : (s.setDisp d).v = s.v := rfl
@[simp] theorem State.setDisp_i (d : Display) : (s.setDisp d).i = s.i := rfl
@[simp] theorem State.setDisp_pc (d : Display) : (s.setDisp d).pc = s.pc := rfl
@[simp] theorem State.setDisp_sp (d : Display) : (s.setDisp d).sp = s.sp := rfl
@[simp] theorem State.setDisp_stack (d : Display) : (s.setDisp d).stack = s.stack := rfl
@[simp] theorem State.setDisp_dt (d : Display) : (s.setDisp d).dt = s.dt := rfl
@[simp] theorem State.setDisp_st (d : Display) : (s.setDisp d).st = s.st := rfl
@[simp] theorem State.setDisp_disp (d : Display) : (s.setDisp d).disp = d := rfl
@[simp] theorem State.setDisp_dirty (d : Display) : (s.setDisp d).dirty = true := rfl
@[simp] theorem State.setDisp_key (d : Display) : (s.setDisp d).key = s.key := rfl
@[simp] theorem State.setDisp_mem (d : Display) : (s.setDisp d).mem = s.mem := rfl
@[simp] theorem State.setDisp_fault (d : Display) : (s.setDisp d).fault = s.fault := rfl
@[simp] theorem State.setDisp_randPort (d : Display) : (s.setDisp d).randPort = s.randPort := rfl
@[simp] theorem State.setDisp_randDraws (d : Display) : (s.setDisp d).randDraws = s.randDraws := rfl

/-! ## advance -/

@[simp] theorem State.advance_v : (s.advance).v = s.v := rfl
@[simp] theorem State.advance_i : (s.advance).i = s.i := rfl
@[simp] theorem State.advance_pc : (s.advance).pc = s.pc + 2 := rfl
@[simp] theorem State.advance_sp : (s.advance).sp = s.sp := rfl
@[simp] theorem State.advance_stack : (s.advance).stack = s.stack := rfl
@[simp] theorem State.advance_dt : (s.advance).dt = s.dt := rfl
@[simp] theorem State.advance_st : (s.advance).st = s.st := rfl
@[simp] theorem State.advance_disp : (s.advance).disp = s.disp := rfl
@[simp] theorem State.advance_dirty : (s.advance).dirty = s.dirty := rfl
@[simp] theorem State.advance_key : (s.advance).key = s.key := rfl
@[simp] theorem State.advance_mem : (s.advance).mem = s.mem := rfl
@[simp] theorem State.advance_fault : (s.advance).fault = s.fault := rfl
@[simp] theorem State.advance_randPort : (s.advance).randPort = s.randPort := rfl
@[simp] theorem State.advance_randDraws : (s.advance).randDraws = s.randDraws := rfl

/-! ## loadV -/

@[simp] theorem State.loadV_i (bytes : List Byte) : (s.loadV bytes).i = s.i := rfl
@[simp] theorem State.loadV_pc (bytes : List Byte) : (s.loadV bytes).pc = s.pc := rfl
@[simp] theorem State.loadV_sp (bytes : List Byte) : (s.loadV bytes).sp = s.sp := rfl
@[simp] theorem State.loadV_stack (bytes : List Byte) : (s.loadV bytes).stack = s.stack := rfl
@[simp] theorem State.loadV_dt (bytes : List Byte) : (s.loadV bytes).dt = s.dt := rfl
@[simp] theorem State.loadV_st (bytes : List Byte) : (s.loadV bytes).st = s.st := rfl
@[simp] theorem State.loadV_disp (bytes : List Byte) : (s.loadV bytes).disp = s.disp := rfl
@[simp] theorem State.loadV_dirty (bytes : List Byte) : (s.loadV bytes).dirty = s.dirty := rfl
@[simp] theorem State.loadV_key (bytes : List Byte) : (s.loadV bytes).key = s.key := rfl
@[simp] theorem State.loadV_mem (bytes : List Byte) : (s.loadV bytes).mem = s.mem := rfl
@[simp] theorem State.loadV_fault (bytes : List Byte) : (s.loadV bytes).fault = s.fault := rfl
@[simp] theorem State.loadV_randPort (bytes : List Byte) : (s.loadV bytes).randPort = s.randPort := rfl
@[simp] theorem State.loadV_randDraws (bytes : List Byte) : (s.loadV bytes).randDraws = s.randDraws := rfl

/-! ## The fatal entry -/

@[simp] theorem fatalEntry_v (w : Word) (f : Fault) : (fatalEntry w f s).v = s.v := rfl
@[simp] theorem fatalEntry_i (w : Word) (f : Fault) : (fatalEntry w f s).i = s.i := rfl
@[simp] theorem fatalEntry_pc (w : Word) (f : Fault) : (fatalEntry w f s).pc = s.pc := rfl
@[simp] theorem fatalEntry_sp (w : Word) (f : Fault) : (fatalEntry w f s).sp = s.sp := rfl
@[simp] theorem fatalEntry_stack (w : Word) (f : Fault) : (fatalEntry w f s).stack = s.stack := rfl
@[simp] theorem fatalEntry_dt (w : Word) (f : Fault) : (fatalEntry w f s).dt = s.dt := rfl
@[simp] theorem fatalEntry_st (w : Word) (f : Fault) : (fatalEntry w f s).st = s.st := rfl
@[simp] theorem fatalEntry_disp (w : Word) (f : Fault) : (fatalEntry w f s).disp = s.disp := rfl
@[simp] theorem fatalEntry_dirty (w : Word) (f : Fault) : (fatalEntry w f s).dirty = s.dirty := rfl
@[simp] theorem fatalEntry_key (w : Word) (f : Fault) : (fatalEntry w f s).key = s.key := rfl
@[simp] theorem fatalEntry_mem (w : Word) (f : Fault) : (fatalEntry w f s).mem = s.mem := rfl
@[simp] theorem fatalEntry_fault (w : Word) (f : Fault) :
    (fatalEntry w f s).fault = { halted := true, cause := f.cause, pc := s.pc, word := w, addr := f.addr } := rfl
@[simp] theorem fatalEntry_randPort (w : Word) (f : Fault) : (fatalEntry w f s).randPort = s.randPort := rfl
@[simp] theorem fatalEntry_randDraws (w : Word) (f : Fault) : (fatalEntry w f s).randDraws = s.randDraws := rfl

/-! ## A draw of RAND -/

@[simp] theorem afterDraw_v : (afterDraw s).v = s.v := by unfold afterDraw; split <;> rfl
@[simp] theorem afterDraw_i : (afterDraw s).i = s.i := by unfold afterDraw; split <;> rfl
@[simp] theorem afterDraw_pc : (afterDraw s).pc = s.pc := by unfold afterDraw; split <;> rfl
@[simp] theorem afterDraw_sp : (afterDraw s).sp = s.sp := by unfold afterDraw; split <;> rfl
@[simp] theorem afterDraw_stack : (afterDraw s).stack = s.stack := by unfold afterDraw; split <;> rfl
@[simp] theorem afterDraw_dt : (afterDraw s).dt = s.dt := by unfold afterDraw; split <;> rfl
@[simp] theorem afterDraw_st : (afterDraw s).st = s.st := by unfold afterDraw; split <;> rfl
@[simp] theorem afterDraw_disp : (afterDraw s).disp = s.disp := by unfold afterDraw; split <;> rfl
@[simp] theorem afterDraw_dirty : (afterDraw s).dirty = s.dirty := by unfold afterDraw; split <;> rfl
@[simp] theorem afterDraw_key : (afterDraw s).key = s.key := by unfold afterDraw; split <;> rfl
@[simp] theorem afterDraw_mem : (afterDraw s).mem = s.mem := by unfold afterDraw; split <;> rfl
@[simp] theorem afterDraw_fault : (afterDraw s).fault = s.fault := by unfold afterDraw; split <;> rfl

/-! ## A skip -/

@[simp] theorem State.skipIf_v (p : Bool) : (s.skipIf p).v = s.v := by cases p <;> rfl
@[simp] theorem State.skipIf_i (p : Bool) : (s.skipIf p).i = s.i := by cases p <;> rfl
@[simp] theorem State.skipIf_pc (p : Bool) : (s.skipIf p).pc = s.pc + (if p then 4 else 2) := by
  cases p <;> rfl
@[simp] theorem State.skipIf_sp (p : Bool) : (s.skipIf p).sp = s.sp := by cases p <;> rfl
@[simp] theorem State.skipIf_stack (p : Bool) : (s.skipIf p).stack = s.stack := by cases p <;> rfl
@[simp] theorem State.skipIf_dt (p : Bool) : (s.skipIf p).dt = s.dt := by cases p <;> rfl
@[simp] theorem State.skipIf_st (p : Bool) : (s.skipIf p).st = s.st := by cases p <;> rfl
@[simp] theorem State.skipIf_disp (p : Bool) : (s.skipIf p).disp = s.disp := by cases p <;> rfl
@[simp] theorem State.skipIf_dirty (p : Bool) : (s.skipIf p).dirty = s.dirty := by cases p <;> rfl
@[simp] theorem State.skipIf_key (p : Bool) : (s.skipIf p).key = s.key := by cases p <;> rfl
@[simp] theorem State.skipIf_mem (p : Bool) : (s.skipIf p).mem = s.mem := by cases p <;> rfl
@[simp] theorem State.skipIf_fault (p : Bool) : (s.skipIf p).fault = s.fault := by cases p <;> rfl
@[simp] theorem State.skipIf_randPort (p : Bool) : (s.skipIf p).randPort = s.randPort := by cases p <;> rfl
@[simp] theorem State.skipIf_randDraws (p : Bool) : (s.skipIf p).randDraws = s.randDraws := by cases p <;> rfl

/-! ## Register reads -/

@[simp] theorem State.getV_setV (r q : RegIdx) (b : Byte) :
    (s.setV r b).getV q = if r = q then b else s.getV q := by
  simp [State.getV, State.setV, Vector.getElem_set, Fin.ext_iff]

@[simp] theorem State.getV_setVF (q : RegIdx) (b : Byte) :
    (s.setVF b).getV q = if RegIdx.vf = q then b else s.getV q := State.getV_setV s RegIdx.vf q b

@[simp] theorem State.getV_loadV (bytes : List Byte) (q : RegIdx) :
    (s.loadV bytes).getV q = (bytes[q.val]?).getD (s.getV q) := by
  simp [State.getV, State.loadV]

@[simp] theorem State.getV_skipIf (p : Bool) (q : RegIdx) : (s.skipIf p).getV q = s.getV q := by cases p <;> rfl

@[simp] theorem State.getV_afterDraw (q : RegIdx) : (afterDraw s).getV q = s.getV q := by simp [State.getV]

@[simp] theorem State.getV_setI (a : Word) (q : RegIdx) : (s.setI a).getV q = s.getV q := rfl
@[simp] theorem State.getV_setPc (a : Word) (q : RegIdx) : (s.setPc a).getV q = s.getV q := rfl
@[simp] theorem State.getV_setDt (b : Byte) (q : RegIdx) : (s.setDt b).getV q = s.getV q := rfl
@[simp] theorem State.getV_setSt (b : Byte) (q : RegIdx) : (s.setSt b).getV q = s.getV q := rfl
@[simp] theorem State.getV_setMem (m : Memory) (q : RegIdx) : (s.setMem m).getV q = s.getV q := rfl
@[simp] theorem State.getV_setDisp (d : Display) (q : RegIdx) : (s.setDisp d).getV q = s.getV q := rfl
@[simp] theorem State.getV_advance (q : RegIdx) : (s.advance).getV q = s.getV q := rfl
@[simp] theorem getV_fatalEntry (w : Word) (f : Fault) (q : RegIdx) : (fatalEntry w f s).getV q = s.getV q := rfl

end Sys2Proof.Machine
end

