-- ==== Sys2Proof/Laws/Memory.lean ====
section
/-! SUPPORT. The laws of memory: a read sees the latest write (spec/20_memory.md R61), every operation keeps the canonical
form, and what the range check and the transfers can answer (R55, R56). -/

namespace Sys2Proof.Machine

/-! ## One byte -/

@[simp] theorem Memory.read_nil (a : Nat) : Memory.read [] a = Memory.background a := rfl

theorem Memory.read_cons (b : Nat) (c : Byte) (m : Memory) (a : Nat) :
    Memory.read ((b, c) :: m) a = if b = a then c else Memory.read m a := rfl

/-- Below its first address a canonical memory lists nothing. -/
theorem Memory.read_below : ∀ (m : Memory) (lo a : Nat), Memory.wfFrom lo m = true → a < lo →
    Memory.read m a = Memory.background a
  | [], _, _, _, _ => rfl
  | (b, c) :: m, lo, a, h, ha => by
    simp only [Memory.wfFrom, Bool.and_eq_true, decide_eq_true_eq] at h
    rw [Memory.read_cons, if_neg (by omega)]
    exact Memory.read_below m (b + 1) a h.2 (by omega)

theorem Memory.read_entry_append (a : Nat) (c : Byte) (m : Memory) (lo : Nat) (hm : Memory.wfFrom lo m = true)
    (ha : a < lo) (b : Nat) :
    Memory.read (Memory.entry a c ++ m) b = if a = b then c else Memory.read m b := by
  unfold Memory.entry
  split <;> rename_i h
  · by_cases hb : a = b
    · subst hb
      simp [Memory.read_below m lo a hm ha, h]
    · simp [hb]
  · simp [Memory.read_cons]

/-- A read after a write: the byte written at its address, the byte of before everywhere else. -/
theorem Memory.read_write : ∀ (m : Memory) (lo a : Nat) (c : Byte) (b : Nat), Memory.wfFrom lo m = true →
    Memory.read (Memory.write m a c) b = if a = b then c else Memory.read m b
  | [], _, a, c, b, _ => by
    simpa [Memory.write] using Memory.read_entry_append a c [] (a + 1) rfl (by omega) b
  | (d, e) :: m, lo, a, c, b, h => by
    have h' := h
    simp only [Memory.wfFrom, Bool.and_eq_true, decide_eq_true_eq] at h'
    rw [Memory.write]
    split
    · rename_i had
      refine Memory.read_entry_append a c _ d ?_ had b
      simp only [Memory.wfFrom, Bool.and_eq_true, decide_eq_true_eq]
      exact ⟨⟨⟨le_refl d, h'.1.1.2⟩, h'.1.2⟩, h'.2⟩
    · split
      · rename_i had
        subst had
        rw [Memory.read_entry_append a c m (a + 1) h'.2 (by omega) b, Memory.read_cons]
        split <;> rfl
      · rename_i h1 h2
        rw [Memory.read_cons, Memory.read_cons, Memory.read_write m (d + 1) a c b h'.2]
        by_cases hdb : d = b
        · have : a ≠ b := by omega
          simp [hdb, this]
        · simp [hdb]

theorem Memory.wfFrom_mono {m : Memory} {lo lo' : Nat} (h : Memory.wfFrom lo m = true) (hle : lo' ≤ lo) :
    Memory.wfFrom lo' m = true := by
  cases m with
  | nil => rfl
  | cons x m =>
    simp only [Memory.wfFrom, Bool.and_eq_true, decide_eq_true_eq] at h ⊢
    exact ⟨⟨⟨by omega, h.1.1.2⟩, h.1.2⟩, h.2⟩

theorem Memory.wfFrom_entry_append {m : Memory} {lo a : Nat} (c : Byte) (h : Memory.wfFrom (a + 1) m = true)
    (hlo : lo ≤ a) (ha : a < memSize) : Memory.wfFrom lo (Memory.entry a c ++ m) = true := by
  unfold Memory.entry
  split <;> rename_i hc
  · exact Memory.wfFrom_mono h (by omega)
  · simp [Memory.wfFrom, hlo, ha, hc, h]

theorem Memory.wfFrom_write : ∀ (m : Memory) (lo a : Nat) (c : Byte), Memory.wfFrom lo m = true → lo ≤ a → a < memSize →
    Memory.wfFrom lo (Memory.write m a c) = true
  | [], lo, a, c, _, hlo, ha => by
    simpa [Memory.write] using Memory.wfFrom_entry_append (m := []) c rfl hlo ha
  | (d, e) :: m, lo, a, c, h, hlo, ha => by
    have h' := h
    simp only [Memory.wfFrom, Bool.and_eq_true, decide_eq_true_eq] at h'
    rw [Memory.write]
    split
    · refine Memory.wfFrom_entry_append c ?_ hlo ha
      simp only [Memory.wfFrom, Bool.and_eq_true, decide_eq_true_eq]
      exact ⟨⟨⟨by omega, h'.1.1.2⟩, h'.1.2⟩, h'.2⟩
    · split
      · rename_i hadd
        subst hadd
        exact Memory.wfFrom_entry_append c h'.2 hlo ha
      · simp only [Memory.wfFrom, Bool.and_eq_true, decide_eq_true_eq]
        exact ⟨h'.1, Memory.wfFrom_write m (d + 1) a c h'.2 (by omega) ha⟩

/-- A write inside memory keeps the canonical form. -/
theorem Memory.wf_write {m : Memory} {a : Nat} (c : Byte) (h : m.wf = true) (ha : a < memSize) :
    (Memory.write m a c).wf = true := Memory.wfFrom_write m 0 a c h (Nat.zero_le a) ha

/-! ## A run of bytes -/

/-- A run of writes inside memory keeps the canonical form. -/
theorem Memory.wf_writeAll : ∀ (bytes : List Byte) (m : Memory) (base : Nat), m.wf = true →
    base + bytes.length ≤ memSize → (Memory.writeAll m base bytes).wf = true
  | [], _, _, h, _ => h
  | c :: bytes, m, base, h, hb => by
    simp only [List.length_cons] at hb
    exact Memory.wf_writeAll bytes _ (base + 1) (Memory.wf_write c h (by omega)) (by omega)

/-- After a run of writes from `base`, each address of the run reads its byte and every other address reads as before. -/
theorem Memory.read_writeAll : ∀ (bytes : List Byte) (m : Memory) (base b : Nat), m.wf = true →
    base + bytes.length ≤ memSize →
    Memory.read (Memory.writeAll m base bytes) b =
      if base ≤ b then (bytes[b - base]?).getD (Memory.read m b) else Memory.read m b
  | [], m, base, b, _, _ => by simp [Memory.writeAll]
  | c :: bytes, m, base, b, h, hb => by
    simp only [List.length_cons] at hb
    rw [Memory.writeAll, Memory.read_writeAll bytes _ (base + 1) b (Memory.wf_write c h (by omega)) (by omega),
      Memory.read_write m 0 base c b h]
    by_cases h1 : base = b
    · subst h1; simp
    · by_cases h2 : base ≤ b
      · have h3 : base + 1 ≤ b := by omega
        have h4 : b - base = (b - (base + 1)) + 1 := by omega
        simp [h1, h2, h3, h4]
      · have h3 : ¬ base + 1 ≤ b := by omega
        simp [h1, h2, h3]

theorem mem_addresses {base n a : Nat} : a ∈ addresses base n ↔ base ≤ a ∧ a < base + n := by
  simp only [addresses, List.mem_map, List.mem_range]
  constructor
  · rintro ⟨k, hk, rfl⟩; omega
  · rintro ⟨h1, h2⟩; exact ⟨a - base, by omega, by omega⟩

theorem addresses_succ (base n : Nat) : addresses base (n + 1) = base :: addresses (base + 1) n := by
  simp only [addresses, List.range_succ_eq_map, List.map_cons, List.map_map, Nat.add_zero]
  congr 1
  apply List.map_congr_left
  intro k _
  simp only [Function.comp_apply]
  omega

@[simp] theorem addresses_length (base n : Nat) : (addresses base n).length = n := by simp [addresses]

/-- The range check finds the first address above 0xFFF: none, or `base` where it is one, or 0x1000. -/
theorem find_addresses : ∀ (n base : Nat), (addresses base n).find? (memSize ≤ ·) =
    if base + n ≤ memSize ∨ n = 0 then none else some (max base memSize)
  | 0, base => by simp [addresses]
  | n + 1, base => by
    rw [addresses_succ, List.find?_cons]
    by_cases h : memSize ≤ base
    · have h1 : ¬ base + (n + 1) ≤ memSize := by omega
      simp [h, h1]
    · rw [find_addresses n (base + 1)]
      simp only [h, decide_false]
      by_cases h1 : base + (n + 1) ≤ memSize
      · have h2 : base + 1 + n ≤ memSize := by omega
        simp [h1, h2]
      · by_cases hn : n = 0
        · subst hn; omega
        · have h2 : ¬ base + 1 + n ≤ memSize := by omega
          have h3 : max (base + 1) memSize = max base memSize := by omega
          simp [h1, h2, h3, hn]

/-- What the range check answers (R55, R56). -/
theorem checkRange_eq (base n : Nat) : checkRange base n =
    if base + n ≤ memSize ∨ n = 0 then .ok () else .error (.outOfBoundsAccess (max base memSize)) := by
  rw [checkRange, find_addresses]
  by_cases h : base + n ≤ memSize ∨ n = 0 <;> simp [h]

/-- What a transfer from memory answers: all its bytes, or the first address out of range. -/
theorem loadBytes_eq (s : State) (base n : Nat) : loadBytes s base n =
    if base + n ≤ memSize ∨ n = 0 then .ok ((addresses base n).map (Memory.read s.mem))
    else .error (.outOfBoundsAccess (max base memSize)) := by
  rw [loadBytes, checkRange_eq]
  by_cases h : base + n ≤ memSize ∨ n = 0 <;> simp [h]

/-- What a transfer to memory answers: all its bytes stored, or the first address out of range. -/
theorem storeBytes_eq (s : State) (base : Nat) (bytes : List Byte) : storeBytes s base bytes =
    if base + bytes.length ≤ memSize ∨ bytes.length = 0 then .ok (s.setMem (Memory.writeAll s.mem base bytes))
    else .error (.outOfBoundsAccess (max base memSize)) := by
  rw [storeBytes, checkRange_eq]
  by_cases h : base + bytes.length ≤ memSize ∨ bytes.length = 0
  · rw [if_pos h, if_pos h]
  · rw [if_neg h, if_neg h]

/-- A store keeps memory's canonical form. -/
theorem storeBytes_keeps_wf {s t : State} {base : Nat} {bytes : List Byte} (hs : s.mem.wf = true)
    (h : storeBytes s base bytes = .ok t) : t.mem.wf = true := by
  rw [storeBytes_eq] at h
  split at h
  · cases h
    rename_i hr
    rcases hr with hr | hr
    · exact Memory.wf_writeAll bytes s.mem base hs hr
    · rw [List.length_eq_zero_iff] at hr
      subst hr
      exact hs
  · cases h

/-- Reset memory lists nothing, so it is in canonical form. -/
theorem reset_mem_wf : State.reset.mem.wf = true := rfl

end Sys2Proof.Machine
end

