-- ==== Sys2Proof/Laws/Ops.lean ====
section
/-! SUPPORT. What each shared operation beyond memory can answer: the call stack, the keypad, the random source, and the
end of an instruction. -/

namespace Sys2Proof.Machine

/-! ## The call stack (spec/40_control_flow.md R102, R104) -/

/-- A push answers a state, or the stack is full. -/
theorem pushCall_cases (s : State) (a : Word) :
    (∃ h : s.sp.val < 16, pushCall s a =
      .ok { s with stack := s.stack.set s.sp.val a, sp := ⟨s.sp.val + 1, by omega⟩ }) ∨
    (s.sp.val = 16 ∧ pushCall s a = .error .stackOverflow) := by
  unfold pushCall
  split
  · rename_i h
    exact .inl ⟨h, rfl⟩
  · exact .inr ⟨by omega, rfl⟩

/-- A pop answers a state, or the stack is empty. -/
theorem popCall_cases (s : State) :
    (s.sp.val ≠ 0 ∧ popCall s =
      .ok { s with pc := s.stack[s.sp.val - 1], sp := ⟨s.sp.val - 1, by omega⟩ }) ∨
    (s.sp.val = 0 ∧ popCall s = .error .stackUnderflow) := by
  unfold popCall
  split
  · exact .inr ⟨by assumption, rfl⟩
  · rename_i h
    exact .inl ⟨h, rfl⟩

/-! ## The keypad (spec/44_keys_timers.md R190, R193) -/

/-- A key read answers the key's level, or its index names no key. -/
theorem readKey_cases (s : State) (k : Byte) :
    (∃ h : k.toNat < 16, readKey s k = .ok s.key[k.toNat]) ∨
    (16 ≤ k.toNat ∧ readKey s k = .error (.keyIndexOutOfRange k)) := by
  unfold readKey
  split
  · rename_i h
    exact .inl ⟨h, rfl⟩
  · exact .inr ⟨by omega, rfl⟩

/-- No highest key: no key is pressed. -/
theorem highestKey_eq_none {s : State} : highestKey s = none ↔ ∀ j : Fin 16, s.key[j] = false := by
  simp [highestKey]

/-- The highest key is pressed, and no higher one is. -/
theorem highestKey_eq_some {s : State} {j : Fin 16} :
    highestKey s = some j ↔ s.key[j] = true ∧ ∀ k : Fin 16, j < k → s.key[k] = false := by
  have hsorted : (List.finRange 16).reverse.Pairwise (· > ·) := by decide
  have hmem : ∀ k : Fin 16, k ∈ (List.finRange 16).reverse := by simp
  unfold highestKey
  generalize (List.finRange 16).reverse = l at hsorted hmem
  have key : ∀ l : List (Fin 16), l.Pairwise (· > ·) → (l.find? (s.key[·]) = some j ↔
      j ∈ l ∧ s.key[j] = true ∧ ∀ k ∈ l, j < k → s.key[k] = false) := by
    intro l
    induction l with
    | nil => simp
    | cons a l ih =>
      intro hp
      rw [List.pairwise_cons] at hp
      rw [List.find?_cons]
      by_cases ha : s.key[a] = true
      · simp only [ha, Option.some.injEq]
        constructor
        · rintro rfl
          refine ⟨List.mem_cons_self, ha, fun k hk hlt => ?_⟩
          rcases List.mem_cons.1 hk with rfl | hk
          · exact absurd hlt (lt_irrefl _)
          · exact absurd (hp.1 k hk) (not_lt.2 hlt.le)
        · rintro ⟨hj, _, hall⟩
          rcases List.mem_cons.1 hj with rfl | hj
          · rfl
          · have := hall a List.mem_cons_self (hp.1 j hj)
            rw [this] at ha
            cases ha
      · have ha' : s.key[a] = false := by simpa using ha
        simp only [ha']
        rw [ih hp.2]
        constructor
        · rintro ⟨hj, hk, hall⟩
          refine ⟨List.mem_cons_of_mem _ hj, hk, fun k hk' hlt => ?_⟩
          rcases List.mem_cons.1 hk' with rfl | hk'
          · exact ha'
          · exact hall k hk' hlt
        · rintro ⟨hj, hk, hall⟩
          rcases List.mem_cons.1 hj with rfl | hj
          · exact absurd hk ha
          · exact ⟨hj, hk, fun k hk' => hall k (List.mem_cons_of_mem _ hk')⟩
  rw [key l hsorted]
  simp [hmem]

/-! ## The random source (spec/41_register_alu.md R133) -/

theorem randByte_of_some {s : State} {b : Byte} (h : s.randPort = some b) : randByte s = b := by simp [randByte, h]

theorem randByte_of_none {s : State} (h : s.randPort = none) : randByte s = Config.freeRand s.randDraws := by
  simp [randByte, h]

theorem afterDraw_of_some {s : State} {b : Byte} (h : s.randPort = some b) :
    afterDraw s = { s with randPort := none } := by simp [afterDraw, h]

theorem afterDraw_of_none {s : State} (h : s.randPort = none) :
    afterDraw s = { s with randDraws := s.randDraws + 1 } := by simp [afterDraw, h]

/-! ## The end of an instruction (spec/60_exceptions.md R212) -/

@[simp] theorem commit_ok (w : Word) (s t : State) : commit w s (.ok t) = .next t := rfl

@[simp] theorem commit_error (w : Word) (s : State) (f : Fault) :
    commit w s (.error f) = .next (fatalEntry w f s) := rfl

/-- An instruction's end is the state it computed, or the fatal entry of the condition it raised. -/
theorem commit_eq_next {w : Word} {s t : State} {r : Except Fault State} (h : commit w s r = .next t) :
    r = .ok t ∨ ∃ f, r = .error f ∧ t = fatalEntry w f s := by
  cases r with
  | ok u => cases h; exact .inl rfl
  | error f => cases h; exact .inr ⟨f, rfl, rfl⟩

end Sys2Proof.Machine
end

