-- ==== Sys2Proof/Laws/PerInstr.lean ====
section
/-! SUPPORT. A statement per instruction, proved constructor by constructor: the family EncodedFamily says that the word of an
instruction has the family nibble that spec/30_encoding.md R75 dispatches it on. -/

namespace Sys2Proof.Laws.EncodedFamily

/-- The family nibble of each instruction, as the case lines of R75 list it. -/
def familyOf : Instr → Nibble
  | .cls | .ret | .sys _ => 0x0
  | .jp _ => 0x1
  | .call _ => 0x2
  | .seImm _ _ => 0x3
  | .sneImm _ _ => 0x4
  | .seReg _ _ => 0x5
  | .ldImm _ _ => 0x6
  | .addImm _ _ => 0x7
  | .ldReg _ _ | .orReg _ _ | .andReg _ _ | .xorReg _ _ | .addReg _ _ | .sub _ _ | .shr _ _ | .subn _ _ | .shl _ _ => 0x8
  | .sneReg _ _ => 0x9
  | .ldI _ => 0xA
  | .jpV0 _ => 0xB
  | .rnd _ _ => 0xC
  | .drw _ _ _ => 0xD
  | .skp _ | .sknp _ => 0xE
  | .ldVxDt _ | .ldVxK _ | .ldDtVx _ | .ldStVx _ | .addI _ | .ldF _ | .ldB _ | .ldMemVx _ | .ldVxMem _ => 0xF

/-- The word of the instruction is in its family. -/
def Statement (i : Instr) : Prop := fieldF (encode i) = familyOf i

theorem cls : Statement .cls := rfl
theorem ret : Statement .ret := rfl
theorem sys (nnn : Addr12) : Statement (.sys nnn) := fieldF_wordNNN _ _
theorem jp (nnn : Addr12) : Statement (.jp nnn) := fieldF_wordNNN _ _
theorem call (nnn : Addr12) : Statement (.call nnn) := fieldF_wordNNN _ _
theorem seImm (x : RegIdx) (kk : Byte) : Statement (.seImm x kk) := fieldF_wordXKK _ _ _
theorem sneImm (x : RegIdx) (kk : Byte) : Statement (.sneImm x kk) := fieldF_wordXKK _ _ _
theorem seReg (x : RegIdx) (y : RegIdx) : Statement (.seReg x y) := fieldF_wordXYN _ _ _ _
theorem ldImm (x : RegIdx) (kk : Byte) : Statement (.ldImm x kk) := fieldF_wordXKK _ _ _
theorem addImm (x : RegIdx) (kk : Byte) : Statement (.addImm x kk) := fieldF_wordXKK _ _ _
theorem ldReg (x : RegIdx) (y : RegIdx) : Statement (.ldReg x y) := fieldF_wordXYN _ _ _ _
theorem orReg (x : RegIdx) (y : RegIdx) : Statement (.orReg x y) := fieldF_wordXYN _ _ _ _
theorem andReg (x : RegIdx) (y : RegIdx) : Statement (.andReg x y) := fieldF_wordXYN _ _ _ _
theorem xorReg (x : RegIdx) (y : RegIdx) : Statement (.xorReg x y) := fieldF_wordXYN _ _ _ _
theorem addReg (x : RegIdx) (y : RegIdx) : Statement (.addReg x y) := fieldF_wordXYN _ _ _ _
theorem sub (x : RegIdx) (y : RegIdx) : Statement (.sub x y) := fieldF_wordXYN _ _ _ _
theorem shr (x : RegIdx) (y : RegIdx) : Statement (.shr x y) := fieldF_wordXYN _ _ _ _
theorem subn (x : RegIdx) (y : RegIdx) : Statement (.subn x y) := fieldF_wordXYN _ _ _ _
theorem shl (x : RegIdx) (y : RegIdx) : Statement (.shl x y) := fieldF_wordXYN _ _ _ _
theorem sneReg (x : RegIdx) (y : RegIdx) : Statement (.sneReg x y) := fieldF_wordXYN _ _ _ _
theorem ldI (nnn : Addr12) : Statement (.ldI nnn) := fieldF_wordNNN _ _
theorem jpV0 (nnn : Addr12) : Statement (.jpV0 nnn) := fieldF_wordNNN _ _
theorem rnd (x : RegIdx) (kk : Byte) : Statement (.rnd x kk) := fieldF_wordXKK _ _ _
theorem drw (x : RegIdx) (y : RegIdx) (n : Nibble) : Statement (.drw x y n) := fieldF_wordXYN _ _ _ _
theorem skp (x : RegIdx) : Statement (.skp x) := fieldF_wordXKK _ _ _
theorem sknp (x : RegIdx) : Statement (.sknp x) := fieldF_wordXKK _ _ _
theorem ldVxDt (x : RegIdx) : Statement (.ldVxDt x) := fieldF_wordXKK _ _ _
theorem ldVxK (x : RegIdx) : Statement (.ldVxK x) := fieldF_wordXKK _ _ _
theorem ldDtVx (x : RegIdx) : Statement (.ldDtVx x) := fieldF_wordXKK _ _ _
theorem ldStVx (x : RegIdx) : Statement (.ldStVx x) := fieldF_wordXKK _ _ _
theorem addI (x : RegIdx) : Statement (.addI x) := fieldF_wordXKK _ _ _
theorem ldF (x : RegIdx) : Statement (.ldF x) := fieldF_wordXKK _ _ _
theorem ldB (x : RegIdx) : Statement (.ldB x) := fieldF_wordXKK _ _ _
theorem ldMemVx (x : RegIdx) : Statement (.ldMemVx x) := fieldF_wordXKK _ _ _
theorem ldVxMem (x : RegIdx) : Statement (.ldVxMem x) := fieldF_wordXKK _ _ _

end Sys2Proof.Laws.EncodedFamily
end

