-- ==== Sys2Proof/Laws/Step.lean ====
section
/-! SUPPORT. What the fetch answers, and the inversion of a step: every case a next state can come from (spec/30_encoding.md
R71). -/

namespace Sys2Proof.Machine

/-- What the fetch answers: the big-endian word at PC, or the first address out of range (R54, R71). -/
theorem fetchWord_eq (s : State) : fetchWord s =
    if s.pc.toNat ≤ 0xFFE then .ok (bigEndian (Memory.read s.mem s.pc.toNat) (Memory.read s.mem (s.pc.toNat + 1)))
    else .error (.outOfBoundsAccess (max s.pc.toNat 0x1000)) := by
  rw [fetchWord, loadBytes_eq]
  by_cases h : s.pc.toNat ≤ 0xFFE
  · rw [if_pos (by unfold memSize; omega), if_pos h]
    rfl
  · rw [if_neg (by unfold memSize; omega), if_neg h]
    rfl

theorem step_of_halted {s : State} (h : s.fault.halted = true) : step s = .next s := by
  simp [step, stepWith, h]

theorem step_of_fetch_error {s : State} {f : Fault} (h : s.fault.halted = false) (hf : fetchWord s = .error f) :
    step s = .next (fatalEntry 0 f s) := by
  simp [step, stepWith, h, hf]

theorem step_of_decode_ok {s : State} {w : Word} {i : Instr} (h : s.fault.halted = false)
    (hf : fetchWord s = .ok w) (hd : decode w = .ok i) : step s = exec i s := by
  simp [step, stepWith, h, hf, hd]

theorem step_of_decode_error {s : State} {w : Word} {e : DecodeError} (h : s.fault.halted = false)
    (hf : fetchWord s = .ok w) (hd : decode w = .error e) : step s = .next s.advance := by
  simp [step, stepWith, h, hf, hd, execIllegal, loggedNoOp]

/-- Where a next state comes from: a halted machine's own state, a failed fetch, an instruction, an illegal word. -/
theorem step_cases {s t : State} (h : step s = .next t) :
    (s.fault.halted = true ∧ t = s) ∨
    (s.fault.halted = false ∧ ∃ f, fetchWord s = .error f ∧ t = fatalEntry 0 f s) ∨
    (s.fault.halted = false ∧ ∃ w i, fetchWord s = .ok w ∧ decode w = .ok i ∧ exec i s = .next t) ∨
    (s.fault.halted = false ∧ ∃ w e, fetchWord s = .ok w ∧ decode w = .error e ∧ t = s.advance) := by
  cases hh : s.fault.halted with
  | true =>
    rw [step_of_halted hh] at h
    cases h
    exact .inl ⟨rfl, rfl⟩
  | false =>
    refine .inr ?_
    cases hf : fetchWord s with
    | error f =>
      rw [step_of_fetch_error hh hf] at h
      cases h
      exact .inl ⟨rfl, f, rfl, rfl⟩
    | ok w =>
      refine .inr ?_
      cases hd : decode w with
      | ok i =>
        rw [step_of_decode_ok hh hf hd] at h
        exact .inl ⟨rfl, w, i, rfl, hd, h⟩
      | error e =>
        rw [step_of_decode_error hh hf hd] at h
        cases h
        exact .inr ⟨rfl, w, e, rfl, hd, rfl⟩

end Sys2Proof.Machine
end

