-- ==== Sys2Proof/Laws/Ports.lean ====
section
/-! SUPPORT. What each host transaction does to each field of the state (spec/60_exceptions.md R225-R227), what a step
transaction can answer, and that the loads keep memory in canonical form. -/

namespace Sys2Proof.Machine

variable (s : State)

/-! ## tick -/

@[simp] theorem tick_v : (tick s).v = s.v := rfl
@[simp] theorem tick_i : (tick s).i = s.i := rfl
@[simp] theorem tick_pc : (tick s).pc = s.pc := rfl
@[simp] theorem tick_sp : (tick s).sp = s.sp := rfl
@[simp] theorem tick_stack : (tick s).stack = s.stack := rfl
@[simp] theorem tick_dt : (tick s).dt = countDown s.dt := rfl
@[simp] theorem tick_st : (tick s).st = countDown s.st := rfl
@[simp] theorem tick_disp : (tick s).disp = s.disp := rfl
@[simp] theorem tick_dirty : (tick s).dirty = s.dirty := rfl
@[simp] theorem tick_key : (tick s).key = s.key := rfl
@[simp] theorem tick_mem : (tick s).mem = s.mem := rfl
@[simp] theorem tick_fault : (tick s).fault = s.fault := rfl
@[simp] theorem tick_randPort : (tick s).randPort = s.randPort := rfl
@[simp] theorem tick_randDraws : (tick s).randDraws = s.randDraws := rfl

/-! ## keySet -/

@[simp] theorem keySet_v (m : BitVec 16) : (keySet m s).v = s.v := rfl
@[simp] theorem keySet_i (m : BitVec 16) : (keySet m s).i = s.i := rfl
@[simp] theorem keySet_pc (m : BitVec 16) : (keySet m s).pc = s.pc := rfl
@[simp] theorem keySet_sp (m : BitVec 16) : (keySet m s).sp = s.sp := rfl
@[simp] theorem keySet_stack (m : BitVec 16) : (keySet m s).stack = s.stack := rfl
@[simp] theorem keySet_dt (m : BitVec 16) : (keySet m s).dt = s.dt := rfl
@[simp] theorem keySet_st (m : BitVec 16) : (keySet m s).st = s.st := rfl
@[simp] theorem keySet_disp (m : BitVec 16) : (keySet m s).disp = s.disp := rfl
@[simp] theorem keySet_dirty (m : BitVec 16) : (keySet m s).dirty = s.dirty := rfl
@[simp] theorem keySet_key (m : BitVec 16) : (keySet m s).key = Vector.ofFn fun k : Fin 16 => m.getLsbD k.val := rfl
@[simp] theorem keySet_mem (m : BitVec 16) : (keySet m s).mem = s.mem := rfl
@[simp] theorem keySet_fault (m : BitVec 16) : (keySet m s).fault = s.fault := rfl
@[simp] theorem keySet_randPort (m : BitVec 16) : (keySet m s).randPort = s.randPort := rfl
@[simp] theorem keySet_randDraws (m : BitVec 16) : (keySet m s).randDraws = s.randDraws := rfl

/-! ## dirtyClr -/

@[simp] theorem dirtyClr_v : (dirtyClr s).v = s.v := rfl
@[simp] theorem dirtyClr_i : (dirtyClr s).i = s.i := rfl
@[simp] theorem dirtyClr_pc : (dirtyClr s).pc = s.pc := rfl
@[simp] theorem dirtyClr_sp : (dirtyClr s).sp = s.sp := rfl
@[simp] theorem dirtyClr_stack : (dirtyClr s).stack = s.stack := rfl
@[simp] theorem dirtyClr_dt : (dirtyClr s).dt = s.dt := rfl
@[simp] theorem dirtyClr_st : (dirtyClr s).st = s.st := rfl
@[simp] theorem dirtyClr_disp : (dirtyClr s).disp = s.disp := rfl
@[simp] theorem dirtyClr_dirty : (dirtyClr s).dirty = false := rfl
@[simp] theorem dirtyClr_key : (dirtyClr s).key = s.key := rfl
@[simp] theorem dirtyClr_mem : (dirtyClr s).mem = s.mem := rfl
@[simp] theorem dirtyClr_fault : (dirtyClr s).fault = s.fault := rfl
@[simp] theorem dirtyClr_randPort : (dirtyClr s).randPort = s.randPort := rfl
@[simp] theorem dirtyClr_randDraws : (dirtyClr s).randDraws = s.randDraws := rfl

/-! ## presentRand -/

@[simp] theorem presentRand_v (b : Byte) : (presentRand b s).v = s.v := rfl
@[simp] theorem presentRand_i (b : Byte) : (presentRand b s).i = s.i := rfl
@[simp] theorem presentRand_pc (b : Byte) : (presentRand b s).pc = s.pc := rfl
@[simp] theorem presentRand_sp (b : Byte) : (presentRand b s).sp = s.sp := rfl
@[simp] theorem presentRand_stack (b : Byte) : (presentRand b s).stack = s.stack := rfl
@[simp] theorem presentRand_dt (b : Byte) : (presentRand b s).dt = s.dt := rfl
@[simp] theorem presentRand_st (b : Byte) : (presentRand b s).st = s.st := rfl
@[simp] theorem presentRand_disp (b : Byte) : (presentRand b s).disp = s.disp := rfl
@[simp] theorem presentRand_dirty (b : Byte) : (presentRand b s).dirty = s.dirty := rfl
@[simp] theorem presentRand_key (b : Byte) : (presentRand b s).key = s.key := rfl
@[simp] theorem presentRand_mem (b : Byte) : (presentRand b s).mem = s.mem := rfl
@[simp] theorem presentRand_fault (b : Byte) : (presentRand b s).fault = s.fault := rfl
@[simp] theorem presentRand_randPort (b : Byte) : (presentRand b s).randPort = some b := rfl
@[simp] theorem presentRand_randDraws (b : Byte) : (presentRand b s).randDraws = s.randDraws := rfl

/-! ## withdrawRand -/

@[simp] theorem withdrawRand_v : (withdrawRand s).v = s.v := rfl
@[simp] theorem withdrawRand_i : (withdrawRand s).i = s.i := rfl
@[simp] theorem withdrawRand_pc : (withdrawRand s).pc = s.pc := rfl
@[simp] theorem withdrawRand_sp : (withdrawRand s).sp = s.sp := rfl
@[simp] theorem withdrawRand_stack : (withdrawRand s).stack = s.stack := rfl
@[simp] theorem withdrawRand_dt : (withdrawRand s).dt = s.dt := rfl
@[simp] theorem withdrawRand_st : (withdrawRand s).st = s.st := rfl
@[simp] theorem withdrawRand_disp : (withdrawRand s).disp = s.disp := rfl
@[simp] theorem withdrawRand_dirty : (withdrawRand s).dirty = s.dirty := rfl
@[simp] theorem withdrawRand_key : (withdrawRand s).key = s.key := rfl
@[simp] theorem withdrawRand_mem : (withdrawRand s).mem = s.mem := rfl
@[simp] theorem withdrawRand_fault : (withdrawRand s).fault = s.fault := rfl
@[simp] theorem withdrawRand_randPort : (withdrawRand s).randPort = none := rfl
@[simp] theorem withdrawRand_randDraws : (withdrawRand s).randDraws = s.randDraws := rfl

/-! ## resetMachine -/

@[simp] theorem resetMachine_v : (resetMachine s).v = State.reset.v := rfl
@[simp] theorem resetMachine_i : (resetMachine s).i = State.reset.i := rfl
@[simp] theorem resetMachine_pc : (resetMachine s).pc = State.reset.pc := rfl
@[simp] theorem resetMachine_sp : (resetMachine s).sp = State.reset.sp := rfl
@[simp] theorem resetMachine_stack : (resetMachine s).stack = State.reset.stack := rfl
@[simp] theorem resetMachine_dt : (resetMachine s).dt = State.reset.dt := rfl
@[simp] theorem resetMachine_st : (resetMachine s).st = State.reset.st := rfl
@[simp] theorem resetMachine_disp : (resetMachine s).disp = State.reset.disp := rfl
@[simp] theorem resetMachine_dirty : (resetMachine s).dirty = State.reset.dirty := rfl
@[simp] theorem resetMachine_key : (resetMachine s).key = State.reset.key := rfl
@[simp] theorem resetMachine_mem : (resetMachine s).mem = State.reset.mem := rfl
@[simp] theorem resetMachine_fault : (resetMachine s).fault = State.reset.fault := rfl
@[simp] theorem resetMachine_randPort : (resetMachine s).randPort = none := rfl
@[simp] theorem resetMachine_randDraws : (resetMachine s).randDraws = s.randDraws := rfl

/-! ## The step transaction (spec/60_exceptions.md R227) -/

@[simp] theorem presentRand_getV (b : Byte) (r : RegIdx) : (presentRand b s).getV r = s.getV r := rfl
@[simp] theorem withdrawRand_getV (r : RegIdx) : (withdrawRand s).getV r = s.getV r := rfl

/-- The byte on the rand port reaches no fetch. -/
@[simp] theorem presentRand_stepWord (b : Byte) : stepWord (presentRand b s) = stepWord s := rfl

@[simp] theorem presentRand_stepInstr (b : Byte) : stepInstr (presentRand b s) = stepInstr s := rfl

/-- The step of a state that executes an instruction is exec of it. -/
theorem step_of_stepInstr {s : State} {i : Instr} (h : stepInstr s = some i) : step s = exec i s := by
  unfold stepInstr stepWord at h
  cases hh : s.fault.halted with
  | true => simp [hh] at h
  | false =>
    cases hf : fetchWord s with
    | error f => simp [hh, hf] at h
    | ok w =>
      cases hd : decode w with
      | error e => simp [hh, hf, hd] at h
      | ok j =>
        simp only [hh, hf, hd, Bool.false_eq_true, if_false, Option.some.injEq] at h
        rw [← h]
        exact step_of_decode_ok hh hf hd

/-- Where a step transaction ends: the step with the byte on the port, which is then released. -/
theorem stepSupplied_eq_next {b : Byte} {s t : State} (h : stepSupplied b s = .next t) :
    ∃ u, step (presentRand b s) = .next u ∧ t = withdrawRand u := by
  unfold stepSupplied at h
  split at h
  · rename_i u hu
    cases h
    exact ⟨u, hu, rfl⟩
  · cases h
  · cases h

/-- A step transaction ends the time for loads. -/
theorem apply_step_eq_next {h h' : Session} {b : Byte} (ha : h.apply (.step b) = .next h') :
    ∃ u, step (presentRand b h.machine) = .next u ∧ h' = { machine := withdrawRand u, loading := false } := by
  simp only [Session.apply] at ha
  split at ha
  · rename_i t ht
    obtain ⟨u, hu, rfl⟩ := stepSupplied_eq_next ht
    cases ha
    exact ⟨u, hu, rfl⟩
  · cases ha
  · cases ha

/-! ## The loads (spec/20_memory.md R67) -/

theorem loadByte_keeps_wf {s : State} {k : Nat} (b : Byte) (hs : s.mem.wf = true) (hk : k < romMax) :
    (loadByte k b s).mem.wf = true := by
  have : progBase + k < memSize := by simp only [romMax, progBase, memSize] at *; omega
  exact Memory.wf_write b hs this

theorem loadImage_keeps_wf {s : State} {image : List Byte} (hs : s.mem.wf = true) (hl : image.length ≤ romMax) :
    (loadImage image s).mem.wf = true := by
  have : progBase + image.length ≤ memSize := by simp only [romMax, progBase, memSize] at *; omega
  exact Memory.wf_writeAll _ _ _ hs this

end Sys2Proof.Machine
end

