-- ==== Sys2Proof/Laws/Sprite.lean ====
section
/-! SUPPORT. What the sprite engine draws (spec/43_display_sprite.md R172): one lemma per operation, up to the pixels and the
collision flag of a whole sprite. -/

namespace Sys2Proof.Machine

@[simp] theorem Display.pixel_clear (c r : Nat) : Display.clear.pixel c r = false := by
  simp [Display.pixel, Display.clear]

/-- Two displays with the same pixels in the frame are the same display. -/
theorem Display.ext_pixel {d e : Display} (h : ∀ c r, c < 64 → r < 32 → d.pixel c r = e.pixel c r) : d = e := by
  apply Vector.ext
  intro r hr
  apply Vector.ext
  intro c hc
  simpa [Display.pixel, hr, hc] using h c r hc hr

/-- A flip changes exactly its own pixel, and none outside the frame. -/
theorem Display.pixel_flip (d : Display) (c r c' r' : Nat) :
    (d.flip c r).pixel c' r' = (d.pixel c' r' ^^ (decide (c = c' ∧ r = r') && decide (r < 32 ∧ c < 64))) := by
  unfold Display.flip
  split
  · rename_i h
    unfold Display.pixel
    split
    · rename_i h'
      by_cases hr : r = r'
      · subst hr
        by_cases hc : c = c'
        · subst hc
          simp [h]
        · simp [hc]
      · simp [hr]
    · rename_i h'
      have : ¬ (c = c' ∧ r = r') := by rintro ⟨rfl, rfl⟩; exact h' h
      simp [this]
  · rename_i h
    simp [h]

/-- What a run of the first k columns of a sprite row covers. -/
def rowCovers (p : Params) (b : Byte) (x0 r k c' r' : Nat) : Bool :=
  decide (r' = r ∧ x0 ≤ c' ∧ c' < x0 + k) && spriteBit p b (c' - x0)

/-- The first k columns of a row: their pixels are flipped, and a lit one among them is a collision. -/
theorem Draw.row_columns (p : Params) (b : Byte) (x0 r : Nat) (d : Draw) : ∀ k : Nat,
    let e := (List.range k).foldl (fun d col => if spriteBit p b col then Draw.plot d (x0 + col) r else d) d
    (∀ c' r', c' < 64 → r' < 32 → e.disp.pixel c' r' = (d.disp.pixel c' r' ^^ rowCovers p b x0 r k c' r')) ∧
    (e.coll = true ↔ d.coll = true ∨
      ∃ c' r', c' < 64 ∧ r' < 32 ∧ rowCovers p b x0 r k c' r' = true ∧ d.disp.pixel c' r' = true)
  | 0 => by
    have hcov : ∀ c' r', rowCovers p b x0 r 0 c' r' = false := by
      intro c' r'
      have h : ¬ (r' = r ∧ x0 ≤ c' ∧ c' < x0 + 0) := by omega
      rw [rowCovers, decide_eq_false h, Bool.false_and]
    simp [hcov]
  | k + 1 => by
    obtain ⟨hp, hc⟩ := Draw.row_columns p b x0 r d k
    rw [List.range_succ, List.foldl_append]
    simp only [List.foldl_cons, List.foldl_nil]
    set e := (List.range k).foldl (fun d col => if spriteBit p b col then Draw.plot d (x0 + col) r else d) d with he
    have hcov : ∀ c' r', rowCovers p b x0 r (k + 1) c' r' =
        (rowCovers p b x0 r k c' r' || (decide (x0 + k = c' ∧ r = r') && spriteBit p b k)) := by
      intro c' r'
      unfold rowCovers
      by_cases h1 : x0 + k = c'
      · subst h1
        by_cases h2 : r = r'
        · subst h2; simp
        · have h3 : ¬ r' = r := fun h => h2 h.symm
          simp [h2, h3]
      · have h3 : (x0 ≤ c' ∧ c' < x0 + (k + 1)) ↔ (x0 ≤ c' ∧ c' < x0 + k) := by omega
        simp [h1, h3]
    have hnot : rowCovers p b x0 r k (x0 + k) r = false := by simp [rowCovers]
    by_cases hb : spriteBit p b k = true
    · simp only [hb, if_true]
      refine ⟨fun c' r' hc' hr' => ?_, ?_⟩
      · rw [Draw.plot, Display.pixel_flip, hp c' r' hc' hr', hcov, hb, Bool.and_true]
        by_cases h : x0 + k = c' ∧ r = r'
        · obtain ⟨rfl, rfl⟩ := h
          simp [hnot, hc', hr']
        · simp [h]
      · simp only [Draw.plot, Bool.or_eq_true, hc, hcov, hb, Bool.and_true, decide_eq_true_eq]
        constructor
        · rintro ((h | ⟨c', r', h1, h2, h3, h4⟩) | h)
          · exact .inl h
          · exact .inr ⟨c', r', h1, h2, .inl h3, h4⟩
          · by_cases hin : x0 + k < 64 ∧ r < 32
            · rw [hp _ _ hin.1 hin.2, hnot, Bool.xor_false] at h
              exact .inr ⟨_, _, hin.1, hin.2, .inr ⟨rfl, rfl⟩, h⟩
            · have : ¬ (r < 32 ∧ x0 + k < 64) := fun h' => hin ⟨h'.2, h'.1⟩
              simp [Display.pixel, this] at h
        · rintro (h | ⟨c', r', h1, h2, h3 | ⟨rfl, rfl⟩, h4⟩)
          · exact .inl (.inl h)
          · exact .inl (.inr ⟨c', r', h1, h2, h3, h4⟩)
          · refine .inr ?_
            rw [hp _ _ h1 h2, hnot, Bool.xor_false]
            exact h4
    · simp only [hb, if_false, Bool.false_eq_true]
      refine ⟨fun c' r' hc' hr' => ?_, ?_⟩
      · rw [hp c' r' hc' hr', hcov]; simp [hb]
      · rw [hc]; simp [hcov, hb]

/-- What the rows of a sprite from display row y on cover. -/
def rowsCover (p : Params) (x0 y : Nat) (bytes : List Byte) (c r : Nat) : Bool :=
  decide (y ≤ r ∧ r < y + bytes.length) && rowCovers p (bytes.getD (r - y) 0) x0 r 8 c r

/-- A sprite flips exactly the pixels it covers in the frame, and collides exactly where one of them was lit. -/
theorem Draw.rows_spec (p : Params) (x0 : Nat) : ∀ (bytes : List Byte) (y : Nat) (d : Draw),
    (∀ c r, c < 64 → r < 32 →
      (Draw.rows p x0 bytes y d).disp.pixel c r = (d.disp.pixel c r ^^ rowsCover p x0 y bytes c r)) ∧
    ((Draw.rows p x0 bytes y d).coll = true ↔ d.coll = true ∨
      ∃ c r, c < 64 ∧ r < 32 ∧ rowsCover p x0 y bytes c r = true ∧ d.disp.pixel c r = true)
  | [], y, d => by
    have hcov : ∀ c r, rowsCover p x0 y [] c r = false := by
      intro c r
      have h : ¬ (y ≤ r ∧ r < y + ([] : List Byte).length) := by simp only [List.length_nil]; omega
      rw [rowsCover, decide_eq_false h, Bool.false_and]
    simp [Draw.rows, hcov]
  | b :: bytes, y, d => by
    obtain ⟨hp1, hc1⟩ := Draw.row_columns p b x0 y d 8
    obtain ⟨hp2, hc2⟩ := Draw.rows_spec p x0 bytes (y + 1) (d.row p b x0 y)
    have hcov : ∀ c r, rowsCover p x0 y (b :: bytes) c r =
        (rowCovers p b x0 y 8 c r || rowsCover p x0 (y + 1) bytes c r) := by
      intro c r
      unfold rowsCover
      by_cases h : r = y
      · subst h
        have h1 : ¬ r + 1 ≤ r := by omega
        simp [h1]
      · by_cases h2 : y + 1 ≤ r
        · have h3 : r - y = (r - (y + 1)) + 1 := by omega
          have h4 : (y ≤ r ∧ r < y + (b :: bytes).length) ↔ (y + 1 ≤ r ∧ r < y + 1 + bytes.length) := by
            simp only [List.length_cons]; omega
          simp only [h4, h3, List.getD_cons_succ]
          simp [rowCovers, h]
        · have h4 : ¬ (y ≤ r ∧ r < y + (b :: bytes).length) := by omega
          have h5 : ¬ (y + 1 ≤ r ∧ r < y + 1 + bytes.length) := by omega
          rw [decide_eq_false h4, decide_eq_false h5]
          simp [rowCovers, h]
    have hdis : ∀ c r, rowCovers p b x0 y 8 c r = true → rowsCover p x0 (y + 1) bytes c r = false := by
      intro c r h
      have : r = y := by
        simp only [rowCovers, Bool.and_eq_true, decide_eq_true_eq] at h
        exact h.1.1
      subst this
      simp [rowsCover]
    have hp1' : ∀ c r, c < 64 → r < 32 →
        (d.row p b x0 y).disp.pixel c r = (d.disp.pixel c r ^^ rowCovers p b x0 y 8 c r) := hp1
    have hc1' : (d.row p b x0 y).coll = true ↔ d.coll = true ∨
        ∃ c r, c < 64 ∧ r < 32 ∧ rowCovers p b x0 y 8 c r = true ∧ d.disp.pixel c r = true := hc1
    refine ⟨fun c r hc hr => ?_, ?_⟩
    · rw [Draw.rows, hp2 c r hc hr, hp1' c r hc hr, hcov]
      by_cases h : rowCovers p b x0 y 8 c r = true
      · simp [h, hdis c r h]
      · simp [h]
    · rw [Draw.rows, hc2, hc1']
      simp only [hcov, Bool.or_eq_true]
      constructor
      · rintro ((h | ⟨c, r, h1, h2, h3, h4⟩) | ⟨c, r, h1, h2, h3, h4⟩)
        · exact .inl h
        · exact .inr ⟨c, r, h1, h2, .inl h3, h4⟩
        · refine .inr ⟨c, r, h1, h2, .inr h3, ?_⟩
          have hn : rowCovers p b x0 y 8 c r = false := by
            by_contra hh
            rw [hdis c r (by simpa using hh)] at h3
            cases h3
          rwa [hp1' c r h1 h2, hn, Bool.xor_false] at h4
      · rintro (h | ⟨c, r, h1, h2, h3 | h3, h4⟩)
        · exact .inl (.inl h)
        · exact .inl (.inr ⟨c, r, h1, h2, h3, h4⟩)
        · refine .inr ⟨c, r, h1, h2, h3, ?_⟩
          have hn : rowCovers p b x0 y 8 c r = false := by
            by_contra hh
            rw [hdis c r (by simpa using hh)] at h3
            cases h3
          rw [hp1' c r h1 h2, hn, Bool.xor_false]
          exact h4

end Sys2Proof.Machine
end

