-- ==== Sys2Proof/Tests/Slice0.lean ====
section
/-! SUPPORT. The model's own tests. Expected values are the spec's worked examples and vectors (spec/95_test_vectors.md, whose
row ids stand before each test) or hand calculations from its rules; words are written out from the formats of
spec/30_encoding.md R74. The last part gives, for each statement with hypotheses, states and operands that meet them. -/

namespace Sys2Proof.Tests

open Sys2Proof Sys2Proof.Machine

/-- The next state of an outcome, if it is one. -/
def nextOf {σ φ ρ : Type} : Host.Outcome σ φ ρ → Option σ
  | .next s => some s
  | .fault _ => none
  | .refused _ => none

/-- The reset state with `f` applied and word w where the next step fetches. -/
def ready (w : Nat) (f : State → State) : State := (f State.reset).withFetchWord 16 w

/-- One step of `ready`. -/
def run (w : Nat) (f : State → State) : Option State := nextOf (step (ready w f))

/-- The state with one pixel flipped. -/
def State.withPixel (s : State) (c r : Nat) : State := { s with disp := s.disp.flip c r }

/-- The state with bytes in memory from `base` up. -/
def State.withBytes (s : State) (base : Nat) (bytes : List Byte) : State :=
  s.setMem (Memory.writeAll s.mem base bytes)

/-- The state with SP at k and every stack entry at a. -/
def State.withStack (s : State) (k : Fin 17) (a : Word) : State := { s with sp := k, stack := Vector.replicate 16 a }

/-- A halted state. -/
def halted : State := haltedWith State.reset .outOfBoundsAccess 0 0x1000

/-! ## Well-formedness: the one check, and what it refuses -/

theorem test_wf_refuses_sys_of_cls : (Instr.sys 0x0E0).wf = false := by decide
theorem test_wf_refuses_sys_of_ret : (Instr.sys 0x0EE).wf = false := by decide
theorem test_wf_admits_sys_beside_them : (Instr.sys 0x0E1).wf = true ∧ (Instr.sys 0x0EF).wf = true := by decide

/-! ## Decoding: a word of every instruction, bit by bit from R74 -/

theorem test_decode_family0 :
    decodeTableWord 16 0b0000000011100000 = some (.cls) ∧
    decodeTableWord 16 0b0000000011101110 = some (.ret) ∧
    decodeTableWord 16 0b0000000100100011 = some (.sys 0x123) ∧
    decodeTableWord 16 0b0000000000000000 = some (.sys 0) ∧
    decodeTableWord 16 0b0000000011100001 = some (.sys 0x0E1) := by decide
theorem test_decode_jumps :
    decodeTableWord 16 0b0001001000110100 = some (.jp 0x234) ∧
    decodeTableWord 16 0b0010001100000000 = some (.call 0x300) ∧
    decodeTableWord 16 0b1011111111111111 = some (.jpV0 0xFFF) := by decide
theorem test_decode_skips :
    decodeTableWord 16 0b0011001101000010 = some (.seImm 3 0x42) ∧
    decodeTableWord 16 0b0100001101000010 = some (.sneImm 3 0x42) ∧
    decodeTableWord 16 0b0101000100100000 = some (.seReg 1 2) ∧
    decodeTableWord 16 0b1001000100100000 = some (.sneReg 1 2) := by decide
theorem test_decode_literals :
    decodeTableWord 16 0b0110101001111111 = some (.ldImm 10 0x7F) ∧
    decodeTableWord 16 0b0111001000100000 = some (.addImm 2 0x20) ∧
    decodeTableWord 16 0b1100001100001111 = some (.rnd 3 0x0F) := by decide
theorem test_decode_alu :
    decodeTableWord 16 0b1000000101010000 = some (.ldReg 1 5) ∧
    decodeTableWord 16 0b1000000100100001 = some (.orReg 1 2) ∧
    decodeTableWord 16 0b1000000100100010 = some (.andReg 1 2) ∧
    decodeTableWord 16 0b1000000100100011 = some (.xorReg 1 2) ∧
    decodeTableWord 16 0b1000000100100100 = some (.addReg 1 2) ∧
    decodeTableWord 16 0b1000000100100101 = some (.sub 1 2) ∧
    decodeTableWord 16 0b1000001111110110 = some (.shr 3 15) ∧
    decodeTableWord 16 0b1000000100100111 = some (.subn 1 2) ∧
    decodeTableWord 16 0b1000001100001110 = some (.shl 3 0) := by decide
theorem test_decode_index_and_draw :
    decodeTableWord 16 0b1010001011110000 = some (.ldI 0x2F0) ∧
    decodeTableWord 16 0b1101000100100011 = some (.drw 1 2 3) := by decide
theorem test_decode_keys :
    decodeTableWord 16 0b1110000110011110 = some (.skp 1) ∧
    decodeTableWord 16 0b1110000110100001 = some (.sknp 1) ∧
    decodeTableWord 16 0b1111000000001010 = some (.ldVxK 0) := by decide
theorem test_decode_timers :
    decodeTableWord 16 0b1111001100000111 = some (.ldVxDt 3) ∧
    decodeTableWord 16 0b1111001100010101 = some (.ldDtVx 3) ∧
    decodeTableWord 16 0b1111010000011000 = some (.ldStVx 4) := by decide
theorem test_decode_memory :
    decodeTableWord 16 0b1111001000011110 = some (.addI 2) ∧
    decodeTableWord 16 0b1111101000101001 = some (.ldF 10) ∧
    decodeTableWord 16 0b1111000000110011 = some (.ldB 0) ∧
    decodeTableWord 16 0b1111001001010101 = some (.ldMemVx 2) ∧
    decodeTableWord 16 0b1111001001100101 = some (.ldVxMem 2) := by decide

/-- R77: one word at each edge of each illegal range. -/
theorem test_illegal_words_are_rejected :
    [0x5001, 0x512F, 0x9001, 0x912F, 0x8008, 0x800D, 0x800F, 0xE09D, 0xE0A2, 0xF000, 0xF0FF].all
      (fun w => decodeTableWord 16 w = none && isIllegalWord (BitVec.ofNat 16 w)) = true := by decide

theorem test_bytes_are_big_endian : decodeBytes [0x12, 0x34, 0x56] = .ok (.jp 0x234, [0x56]) := by decide
theorem test_one_byte_is_truncated : decodeBytes [0x12] = .error .truncated := by decide

/-! ## One step each: control flow (T vectors) -/

/-- T2 -/
theorem test_sys_is_a_no_op :
    (run 0x00E1 id).map (fun t => (t.pc, t.dirty, t.getV 15)) =
      some (0x202, false, 0) := by decide
/-- T2 -/
theorem test_sys_logs : stepLog (ready 0x00E1 id) = some { pc := 0x200, word := 0x00E1 } := by decide
/-- T4 -/
theorem test_ret :
    (run 0x00EE (State.withStack · 1 0x204)).map (fun t => (t.pc, t.sp, t.stack[0])) =
      some (0x206, 0, 0x204) := by decide
/-- T5 -/
theorem test_ret_underflow :
    (run 0x00EE id).map (fun t => (t.pc, t.sp, t.fault)) =
      some (0x200, 0, FaultStatus.mk true .stackUnderflow 0x200 0x00EE 0) := by decide
/-- T7 -/
theorem test_jp : (run 0x1234 id).map (fun t => t.pc) = some 0x234 := by decide
/-- T10 -/
theorem test_call :
    (run 0x2300 (State.withStack · 15 0)).map (fun t => (t.pc, t.sp, t.stack[15], t.stack[14])) =
      some (0x300, 16, 0x200, 0) := by decide
/-- T11 -/
theorem test_call_overflow :
    (run 0x2300 (State.withStack · 16 0)).map (fun t => (t.pc, t.sp, t.fault.cause, t.fault.word)) =
      some (0x200, 16, Cause.stackOverflow, 0x2300) := by decide
/-- T12 -/
theorem test_se_imm_skips : (run 0x3342 (·.setV 3 0x42)).map (fun t => t.pc) = some 0x204 := by decide
/-- T24 -/
theorem test_se_imm_at_the_end : (run 0x3000 (·.setPc 0xFFC)).map (fun t => t.pc) = some 0x1000 := by decide
/-- T14 -/
theorem test_sne_imm : (run 0x4342 (·.setV 3 0x42)).map (fun t => t.pc) = some 0x202 := by decide
/-- T15 -/
theorem test_sne_imm_skips : (run 0x4342 (·.setV 3 0x41)).map (fun t => t.pc) = some 0x204 := by decide
/-- T17 -/
theorem test_se_reg : (run 0x5120 (fun s => (s.setV 1 7).setV 2 8)).map (fun t => t.pc) = some 0x202 := by decide
/-- T16 -/
theorem test_se_reg_skips :
    (run 0x5120 (fun s => (s.setV 1 7).setV 2 7)).map (fun t => t.pc) =
      some 0x204 := by decide
/-- T19 -/
theorem test_sne_reg_skips :
    (run 0x9120 (fun s => (s.setV 1 7).setV 2 8)).map (fun t => t.pc) =
      some 0x204 := by decide
/-- T20 -/
theorem test_sne_reg : (run 0x9120 (fun s => (s.setV 1 7).setV 2 7)).map (fun t => t.pc) = some 0x202 := by decide
/-- T23 -/
theorem test_jp_v0_passes_the_end : (run 0xBFFF (·.setV 0 0xFF)).map (fun t => t.pc) = some 0x10FE := by decide
/-- T18 -/
theorem test_illegal_does_not_skip :
    (run 0x5121 (fun s => (s.setV 1 7).setV 2 7)).map (fun t => t.pc) =
      some 0x202 := by decide

/-! ## One step each: the register ALU (A vectors) -/

/-- A1 -/
theorem test_ld_imm : (run 0x6A7F id).map (fun t => t.getV 10) = some 0x7F := by decide
/-- A4 -/
theorem test_add_imm_sets_no_flag :
    (run 0x7201 (·.setV 2 0xFF)).map (fun t => (t.getV 2, t.getV 15)) =
      some (0, 0) := by decide
/-- A6 -/
theorem test_ld_reg :
    (run 0x8120 (fun s => (s.setV 1 0x12).setV 2 0x34)).map (fun t => (t.getV 1, t.getV 2)) =
      some (0x34, 0x34) := by decide
/-- A7 -/
theorem test_or_keeps_vf :
    (run 0x8121 (fun s => ((s.setV 1 0xF0).setV 2 0x0F).setV 15 7)).map (fun t => (t.getV 1, t.getV 15)) =
      some (0xFF, 7) := by decide
/-- A8 -/
theorem test_and :
    (run 0x8122 (fun s => (s.setV 1 0xF0).setV 2 0x3C)).map (fun t => t.getV 1) =
      some 0x30 := by decide
/-- A9 -/
theorem test_xor :
    (run 0x8123 (fun s => (s.setV 1 0xFF).setV 2 0x0F)).map (fun t => t.getV 1) =
      some 0xF0 := by decide
/-- A11 -/
theorem test_add_reg :
    (run 0x8124 (fun s => (s.setV 1 250).setV 2 10)).map (fun t => (t.getV 1, t.getV 15)) =
      some (4, 1) := by decide
/-- A15 -/
theorem test_add_reg_vf_is_the_sum :
    (run 0x8F14 (fun s => (s.setV 15 0x10).setV 1 0xF5)).map (fun t => t.getV 15) =
      some 5 := by decide
/-- A17 -/
theorem test_sub :
    (run 0x8125 (fun s => (s.setV 1 5).setV 2 10)).map (fun t => (t.getV 1, t.getV 15)) =
      some (0xFB, 0) := by decide
/-- A21 -/
theorem test_sub_into_vf :
    (run 0x8F15 (fun s => (s.setV 15 5).setV 1 3)).map (fun t => t.getV 15) =
      some 0xFE := by decide
/-- A26 -/
theorem test_shr_ignores_y :
    (run 0x83F6 (·.setV 3 1)).map (fun t => (t.getV 3, t.getV 15)) =
      some (0, 1) := by decide
/-- A28 -/
theorem test_shr_vf : (run 0x8F06 (·.setV 15 3)).map (fun t => t.getV 15) = some 0 := by decide
/-- A30 -/
theorem test_subn :
    (run 0x8127 (fun s => (s.setV 1 10).setV 2 5)).map (fun t => (t.getV 1, t.getV 15)) =
      some (0xFB, 0) := by decide
/-- A35 -/
theorem test_subn_from_vf :
    (run 0x81F7 (fun s => (s.setV 1 3).setV 15 5)).map (fun t => (t.getV 1, t.getV 15)) =
      some (0xFE, 1) := by decide
/-- A37 -/
theorem test_shl : (run 0x830E (·.setV 3 0x81)).map (fun t => (t.getV 3, t.getV 15)) = some (2, 1) := by decide
/-- A39 -/
theorem test_shl_vf : (run 0x8F0E (·.setV 15 0xC0)).map (fun t => t.getV 15) = some 2 := by decide
/-- A41 -/
theorem test_rnd_takes_the_byte :
    (run 0xC30F (presentRand 0xA5 ·)).map (fun t => (t.getV 3, t.randPort)) =
      some (5, none) := by decide
/-- A42 -/
theorem test_rnd_always_draws :
    (run 0xC300 (presentRand 0xA5 ·)).map (fun t => (t.getV 3, t.randPort, t.randDraws)) =
      some (0, none, 0) := by decide

/-- A22, A24, A29, A34, A36, A40: the LATCHED reading. -/
theorem test_latched_alu :
    let p : Params := { Config.params with vfTiming := .latched }
    let s := State.reset
    (subWith p 15 1 ((s.setV 15 5).setV 1 3)).getV 15 = 2 ∧ (subWith p 1 15 ((s.setV 1 5).setV 15 3)).getV 1 = 2 ∧
    (shrWith p 15 (s.setV 15 3)).getV 15 = 1 ∧ (subnWith p 15 1 ((s.setV 15 3).setV 1 5)).getV 15 = 2 ∧
    (subnWith p 1 15 ((s.setV 1 3).setV 15 5)).getV 1 = 2 ∧ (shlWith p 15 (s.setV 15 0xC0)).getV 15 = 0x80 := by
  decide

/-! ## One step each: index and memory (M vectors) -/

/-- M1 -/
theorem test_ld_i : (run 0xA123 id).map (fun t => t.i) = some 0x123 := by decide
/-- Fx1E has a next state whatever FX1E_VF is. -/
theorem test_add_i_runs : (run 0xF21E (fun s => (s.setI 0xFFE).setV 2 3)).isSome = true := by decide
/-- M8 -/
theorem test_ld_f_has_no_mask : (run 0xF129 (·.setV 1 0xFF)).map (fun t => t.i) = some 0x4FB := by decide
/-- M9 -/
theorem test_ld_b :
    (run 0xF033 (fun s => (s.setV 0 254).setI 0x300)).map (fun t => (t.byteAt 0x300, t.byteAt 0x301, t.byteAt 0x302)) =
      some (2, 5, 4) := by decide
/-- M12 -/
theorem test_ld_b_out_of_range :
    (run 0xF033 (fun s => (s.setV 0 100).setI 0xFFE)).map (fun t => (t.byteAt 0xFFE, t.fault.cause, t.fault.addr)) =
      some (0, Cause.outOfBoundsAccess, 0x1000) := by decide
/-- M14 -/
theorem test_store_block :
    (run 0xF255 (fun s => (((s.setV 0 1).setV 1 2).setV 2 3).setI 0x400)).map (fun t => (t.mem.filter (0x300 ≤ ·.1), t.i)) =
      some ([(0x400, 1), (0x401, 2), (0x402, 3)], 0x400) := by decide
/-- M17 -/
theorem test_store_block_out_of_range :
    (run 0xFF55 (fun s => (s.setV 0 0x11).setI 0xFF1)).map (fun t => (t.byteAt 0xFF1, t.fault.addr)) =
      some (0, 0x1000) := by decide
/-- M18 -/
theorem test_load_block :
    (run 0xF265 (fun s => (State.withBytes s 0x300 [2, 5, 4]).setI 0x300)).map (fun t => (t.getV 0, t.getV 1, t.getV 2, t.getV 3)) =
      some (2, 5, 4, 0) := by decide
/-- M21 -/
theorem test_load_block_out_of_range :
    (run 0xF165 (fun s => (s.setV 0 9).setI 0xFFF)).map (fun t => (t.getV 0, t.fault.addr)) =
      some (9, 0x1000) := by decide

/-- M2 to M6: both settings of FX1E_VF. -/
theorem test_add_i_under_both_settings :
    let on : Params := { Config.params with fx1eVf := true }
    let off : Params := { Config.params with fx1eVf := false }
    let s := State.reset
    (addIWith off 2 ((s.setI 0xFFE).setV 2 3)).getV 15 = 0 ∧ (addIWith on 2 ((s.setI 0xFFE).setV 2 3)).getV 15 = 1 ∧
    (addIWith on 2 (((s.setI 0x100).setV 2 0x10).setV 15 1)).getV 15 = 0 ∧
    (addIWith off 2 ((s.setI 0xFFE).setV 2 3)).i = 0x1001 ∧
    (addIWith on 2 ((s.setI 0xFFFF).setV 2 1)).i = 0 ∧ (addIWith on 15 ((s.setI 0x300).setV 15 0x20)).i = 0x320 := by
  decide

/-- M15, M19: LDST_INCREMENTS_I = true. -/
theorem test_block_copies_that_increment_i :
    let p : Params := { Config.params with ldstIncrementsI := true }
    (storeBlockWith p 2 (State.reset.setI 0x400)).toOption.map (·.i) = some 0x403 ∧
    (loadBlockWith p 0 (State.reset.setI 0x300)).toOption.map (·.i) = some 0x301 := by decide

/-! ## One step each: the display (D vectors) -/

/-- D1 -/
theorem test_cls :
    (run 0x00E0 (fun s => State.withPixel (State.withPixel s 0 0) 63 31)).map (fun t => (t.pixelAt 0 0, t.pixelAt 63 31, t.dirty)) =
      some (false, false, true) := by decide
/-- D6 -/
theorem test_drw_clips :
    (run 0xD122 (fun s => ((State.withBytes s 0x300 [0xFF, 0x81]).setI 0x300 |>.setV 1 60).setV 2 31)).map (fun t => (t.pixelAt 60 31, t.pixelAt 63 31, t.pixelAt 0 31, t.pixelAt 60 0, t.getV 15)) =
      some (true, true, false, false, 0) := by decide
/-- D9 -/
theorem test_drw_collides :
    (run 0xD121 (fun s => State.withPixel ((State.withBytes s 0x300 [0xC0]).setI 0x300) 1 0)).map (fun t => (t.pixelAt 0 0, t.pixelAt 1 0, t.getV 15)) =
      some (true, false, 1) := by decide

/-- D10 and D12: SPRITE_MSB_FIRST = false, and LATCHED coordinates. -/
theorem test_drw_under_the_other_settings :
    (drawWith { Config.params with spriteMsbFirst := false } 1 2 [0x01] State.reset).pixelAt 0 0 = true ∧
    (drawWith { Config.params with vfTiming := .latched } 15 1 [0x80] ((State.reset.setV 15 5).setV 1 3)).pixelAt 5 3 =
      true := by decide

/-! ## One step each: keys and timers (K vectors) -/

/-- K1 -/
theorem test_skp_skips :
    (run 0xE19E (fun s => keySet 0x20 (s.setV 1 5))).map (fun t => t.pc) =
      some 0x204 := by decide
/-- K3 -/
theorem test_skp_index_out_of_range :
    (run 0xE19E (·.setV 1 0x10)).map (fun t => (t.pc, t.fault.cause, t.fault.addr)) =
      some (0x200, Cause.keyIndexOutOfRange, 0x10) := by decide
/-- K4 -/
theorem test_sknp_skips : (run 0xE1A1 (·.setV 1 5)).map (fun t => t.pc) = some 0x204 := by decide
/-- K6 -/
theorem test_sknp_index_out_of_range :
    (run 0xE1A1 (·.setV 1 0xFF)).map (fun t => (t.fault.cause, t.fault.addr)) =
      some (Cause.keyIndexOutOfRange, 0xFF) := by decide
/-- K7 -/
theorem test_ld_vx_dt : (run 0xF307 (·.setDt 0x3C)).map (fun t => t.getV 3) = some 0x3C := by decide
/-- K9 -/
theorem test_ld_vx_k_takes_the_highest :
    (run 0xF00A (keySet 0x208 ·)).map (fun t => (t.getV 0, t.pc)) =
      some (9, 0x202) := by decide
/-- K8 -/
theorem test_ld_vx_k_waits : run 0xF00A id = some (ready 0xF00A id) ∧ stepReply (ready 0xF00A id) = .waiting := by
  decide
/-- K11 -/
theorem test_ld_dt_vx : (run 0xF315 (·.setV 3 0x3C)).map (fun t => (t.dt, t.st)) = some (0x3C, 0) := by decide
/-- K13 -/
theorem test_ld_st_vx :
    (run 0xF418 (·.setV 4 2)).map (fun t => (t.dt, t.st, tone t)) =
      some (0, 2, true) := by decide

/-! ## The step and the host's transactions (F and H vectors) -/

/-- F2 and F3: the fetch out of range. -/
theorem test_fetch_out_of_range :
    (nextOf (step (State.reset.setPc 0xFFF))).map (·.fault.addr) = some 0x1000 ∧
    (nextOf (step (State.reset.setPc 0x10FE))).map (·.fault.addr) = some 0x10FE := by decide

/-- F4 and H4: a halted machine. -/
theorem test_halted_absorbs_and_ticks :
    nextOf (step halted) = some halted ∧ stepReply halted = .halted ∧ (tick (halted.setDt 2)).dt = 1 := by decide

/-- H1 and H3: the timers stop at 0, and the tone with ST. -/
theorem test_tick : (Nat.iterate tick 5 (State.reset.setDt 3)).dt = 0 ∧ tone (State.reset.setSt 1) = true ∧
    tone (tick (State.reset.setSt 1)) = false := by decide

/-- H5 and H6. -/
theorem test_key_set_and_dirty_clr : (keySet 0x0208 State.reset).key[3] = true ∧ (keySet 0x0208 State.reset).key[9] = true ∧
    (keySet 0x0208 State.reset).key[4] = false ∧ (dirtyClr (State.reset.setDisp Display.clear)).dirty = false := by decide

/-- H7: reset clears everything, memory and the fault status included. -/
theorem test_reset_of_a_halted_machine : resetMachine (State.withBytes halted 0x300 [1]) = State.reset := by decide

/-- H8, and a load after the first step. -/
theorem test_loads_that_are_refused :
    (match Session.start.apply (.load 3584 1) with | .refused .romTooLong => true | _ => false) = true ∧
    (match (Session.mk State.reset false).apply (.load 0 1) with | .refused .loadAfterFirstStep => true | _ => false) =
      true := by decide

/-- A41, and the host's duty in R227: the byte that comes with a step reaches RND in that step and is gone after it. -/
theorem test_step_transaction_supplies_rand :
    (nextOf ((Session.mk (ready 0xC30F id) true).apply (.step 0xA5))).map
      (fun h => (h.machine.getV 3, h.machine.randPort, h.machine.randDraws)) = some (5, none, 0) ∧
    (nextOf (Session.start.apply (.step 0xA5))).map (·.machine.randPort) = some none := by decide

/-- R67: a ROM's first bytes stand at 0x200 and the first step runs them. -/
theorem test_rom_runs_from_reset :
    (nextOf (Session.start.run [.loadRom [0x6A, 0x7F], .step 0])).map
      (fun h => (h.machine.getV 10, h.machine.pc, h.loading)) = some (0x7F, 0x202, false) := by decide

/-! ## Witnesses: each statement's hypotheses are met, at the edges of each clause -/

theorem witness_DecodeOfEncodeIsTheInstruction : (Instr.drw 15 15 15).wf = true ∧ (Instr.sys 0xFFF).wf = true := by decide

theorem witness_EncodeOfDecodeIsTheWord : decode 0x83F6 = .ok (.shr 3 15) := by decide

theorem witness_DecodeRejectsExactlyTheIllegalWords :
    isIllegalWord 0x5001 = true ∧ isIllegalWord 0x5000 = false ∧ isIllegalWord 0x8008 = true ∧
    isIllegalWord 0x8007 = false ∧ isIllegalWord 0xFFFF = true := by decide

theorem witness_DecodeAgreesWithOpcodeTable :
    decode 0x00E0 = .ok .cls ∧ decode 0x5001 = .error .illegalOpcode ∧
    (∃ r ∈ opcodeTable, ∃ q ∈ opcodeTable, r ≠ q ∧ 0x00E0 &&& r.mask = r.pattern ∧ 0x00E0 &&& q.mask = q.pattern) ∧
    (∃ r ∈ opcodeTable, 0x8126 &&& r.mask = r.pattern) := by decide

/-- The reset state runs a step, and so does the last fetchable address. -/
theorem witness_Runs : Runs State.reset ∧ Runs (State.reset.setPc 0xFFE) := ⟨⟨rfl, by decide⟩, ⟨rfl, by decide⟩⟩

theorem witness_StepRunsTheDecodedInstruction :
    Runs (ready 0x6A7F (·.setPc 0xFFE)) ∧ decode (wordAtPc (ready 0x6A7F (·.setPc 0xFFE))) = .ok (.ldImm 10 0x7F) :=
  ⟨⟨rfl, by decide⟩, by decide⟩

theorem witness_IllegalWordIsALoggedNoOp :
    Runs (ready 0x5121 id) ∧ isIllegalWord (wordAtPc (ready 0x5121 id)) = true := ⟨⟨rfl, by decide⟩, by decide⟩

theorem witness_FetchOutOfRangeIsFatal :
    (State.reset.setPc 0xFFF).fault.halted = false ∧ 0xFFE < (State.reset.setPc 0xFFF).pc.toNat ∧
    0xFFE < (State.reset.setPc 0x1000).pc.toNat := by decide

theorem witness_SysIsALoggedNoOp : Runs State.reset ∧ isSysWord (wordAtPc State.reset) = true :=
  ⟨⟨rfl, by decide⟩, by decide⟩

/-- SP = 0, SP = 1 (k = 0) and SP = 16 (k = 15). -/
theorem witness_RetPopsAndAddsTwo :
    State.reset.sp = 0 ∧ (State.withStack State.reset 1 0x204).sp.val = (0 : Fin 16).val + 1 ∧
    (State.withStack State.reset 16 0x300).sp.val = (15 : Fin 16).val + 1 := by decide

/-- SP = 16, SP = 15 and SP = 0. -/
theorem witness_CallPushesItsOwnAddress :
    (State.withStack State.reset 16 0).sp.val = 16 ∧ (State.withStack State.reset 15 0).sp.val = (15 : Fin 16).val ∧
    State.reset.sp.val = (0 : Fin 16).val := by decide

/-- The state after the CALL is one that the RET may start from. -/
theorem witness_RetUndoesCall : (State.withStack State.reset 15 0).sp.val < 16 ∧
    ∃ t, exec (.call 0x300) (State.withStack State.reset 15 0) = .next t ∧ t.sp = 16 ∧ t.stack[15] = 0x200 :=
  ⟨by decide, _, rfl, by decide, by decide⟩

theorem witness_AddRegistersSetsCarry : (14 : RegIdx) ≠ 15 := by decide

/-- Neither operand is VF: also SubtractSetsStrictGreater, ShiftsSetTheBitShiftedOut and VfAsOperandReadsItsNewValue. -/
theorem witness_SubtractSetsStrictGreater : (14 : RegIdx) ≠ 15 ∧ (0 : RegIdx) ≠ 15 := by decide

theorem witness_ShiftsSetTheBitShiftedOut : (14 : RegIdx) ≠ 15 := by decide

theorem witness_VfAsOperandReadsItsNewValue : (14 : RegIdx) ≠ 15 := by decide

theorem witness_RndMasksOneDraw :
    (presentRand 0xA5 State.reset).randPort = some 0xA5 ∧ State.reset.randPort = none := by decide

/-- FX1E_VF has no value a proof can see, and one of the two clauses always applies; `test_add_i_under_both_settings` runs the
meaning under each. -/
theorem witness_AddIndexUnderBothSettings : Config.fx1eVf = true ∨ Config.fx1eVf = false := by
  cases Config.fx1eVf <;> simp

/-- I = 0xFFD is the highest legal I, and I = 0xFFE is out of range. -/
theorem witness_StoreBcdDigits : State.reset.mem.wf = true ∧ (State.reset.setI 0xFFD).i.toNat + 2 ≤ 0xFFF ∧
    0xFFF < (State.reset.setI 0xFFE).i.toNat + 2 := by decide

/-- Both edges with x = 15 and with x = 0. -/
theorem witness_StoreRegisterBlock : State.reset.mem.wf = true ∧
    (State.reset.setI 0xFF0).i.toNat + (15 : RegIdx).val ≤ 0xFFF ∧
    0xFFF < (State.reset.setI 0xFF1).i.toNat + (15 : RegIdx).val ∧
    (State.reset.setI 0xFFF).i.toNat + (0 : RegIdx).val ≤ 0xFFF ∧
    0xFFF < (State.reset.setI 0x1000).i.toNat + (0 : RegIdx).val := by decide

theorem witness_LoadRegisterBlock :
    (State.reset.setI 0xFF0).i.toNat + (15 : RegIdx).val ≤ 0xFFF ∧
    0xFFF < (State.reset.setI 0xFF1).i.toNat + (15 : RegIdx).val := by decide

/-- Fx55 with a block that starts and ends at the next word, with one that ends there, and Fx33 with its first and its last
two digits there, each at the last PC that leaves room for it. -/
theorem witness_StoredWordIsFetchedNext :
    let s := ready 0xF155 (·.setPc 0xFFC)
    let u := ready 0xFF55 (·.setPc 0x300)
    let d := ready 0xF033 (·.setPc 0xFFB)
    Runs s ∧ s.mem.wf = true ∧ decode (wordAtPc s) = .ok (.ldMemVx 1) ∧ (s.setI 0xFFE).i.toNat + 1 ≤ 0xFFF ∧
    (s.setI 0xFFE).i.toNat + 0 = s.pc.toNat + 2 ∧
    Runs u ∧ u.mem.wf = true ∧ decode (wordAtPc u) = .ok (.ldMemVx 15) ∧ (14 : RegIdx).val < (15 : RegIdx).val ∧
    (u.setI 0x2F4).i.toNat + (14 : RegIdx).val = u.pc.toNat + 2 ∧
    Runs d ∧ d.mem.wf = true ∧ decode (wordAtPc d) = .ok (.ldB 0) ∧ (d.setI 0xFFD).i.toNat + 2 ≤ 0xFFF ∧
    (d.setI 0xFFD).i.toNat = d.pc.toNat + 2 ∧ (d.setI 0xFFC).i.toNat + 1 = d.pc.toNat + 2 :=
  ⟨⟨rfl, by decide⟩, by decide, by decide, by decide, by decide, ⟨rfl, by decide⟩, by decide, by decide, by decide,
    by decide, ⟨rfl, by decide⟩, by decide, by decide, by decide, by decide, by decide⟩

/-- The word stored is the word fetched. -/
theorem test_stored_word_is_fetched :
    (nextOf (step (((ready 0xF155 (·.setPc 0xFFC)).setI 0xFFE |>.setV 0 0x12).setV 1 0x34))).map wordAtPc =
      some 0x1234 := by decide

/-- n = 0 with I anywhere, and the last byte of memory. -/
theorem witness_DrwXorsTheSprite : ((0 : Nibble) = 0) ∧ (State.reset.setI 0xFFF).i.toNat + (1 : Nibble).toNat ≤ 0x1000 ∧
    (State.reset.setI 0xFF1).i.toNat + (15 : Nibble).toNat ≤ 0x1000 := by decide

theorem witness_DrwOutOfRangeIsFatal : (1 : Nibble) ≠ 0 ∧ 0x1000 < (State.reset.setI 0x1000).i.toNat + (1 : Nibble).toNat ∧
    0x1000 < (State.reset.setI 0xFFF).i.toNat + (2 : Nibble).toNat := by decide

/-- A first draw that hits nothing, on a clear display. -/
theorem witness_DrawingTwiceRestoresTheDisplay :
    let s := (State.withBytes State.reset 0x300 [0x80]).setI 0x300
    (0 : RegIdx) ≠ 15 ∧ (1 : RegIdx) ≠ 15 ∧ s.i.toNat + (1 : Nibble).toNat ≤ 0x1000 ∧
    (nextOf (exec (.drw 0 1 1) s)).map (·.getV 15) = some 0 := by decide

theorem witness_KeySkipsReadTheKeyLevel : ((State.reset.setV 1 15).getV 1).toNat = (15 : Fin 16).val ∧
    (State.reset.getV 1).toNat = (0 : Fin 16).val ∧ 15 < ((State.reset.setV 1 16).getV 1).toNat := by decide

theorem witness_KeyWaitPollsTheHighestKey :
    (∀ j : Fin 16, (ready 0xF00A id).key[j] = false) ∧ decode (wordAtPc (ready 0xF00A id)) = .ok (.ldVxK 0) ∧
    (keySet 0x208 State.reset).key[9] = true ∧ (∀ k : Fin 16, 9 < k → (keySet 0x208 State.reset).key[k] = false) ∧
    (keySet 0x8001 State.reset).key[15] = true ∧ (∀ k : Fin 16, 15 < k → (keySet 0x8001 State.reset).key[k] = false) ∧
    (ready 0xF00A id).fault.halted = false ∧ (ready 0xF00A id).pc.toNat ≤ 0xFFE := by
  decide

/-- A tick, and a step whose instruction is not Fx15. -/
theorem witness_DelayTimerOnlyGrowsByFx15 :
    Session.start.apply .tick = .next { machine := tick State.reset, loading := true } ∧
    (nextOf (Session.start.apply (.step 0))).isSome = true ∧ stepInstr State.reset = some (.sys 0) :=
  ⟨rfl, by decide, by decide⟩

theorem witness_RomLoadIsVerbatimOrRefused : Session.start.loading = true ∧ Session.start.machine.mem.wf = true ∧
    0 < romMax ∧ 3583 < 3584 ∧ 3584 ≤ romMax ∧ (List.replicate romMax (0 : Byte)).length ≤ 3584 ∧ 3584 < (List.replicate (romMax + 1) (0 : Byte)).length ∧
    (Session.mk State.reset false).loading = false ∧ (nextOf (Session.start.apply (.step 0))).isSome = true :=
  ⟨rfl, rfl, by decide, by decide, by decide, by rw [List.length_replicate]; decide, by rw [List.length_replicate]; decide, rfl, by decide⟩

/-- A step of Cxkk, and one of another instruction. -/
theorem witness_StepTransactionSamplesRandOnlyForRnd :
    stepInstr (ready 0xC30F id) = some (.rnd 3 0x0F) ∧ (∀ x kk, stepInstr State.reset ≠ some (.rnd x kk)) := by
  refine ⟨by decide, fun x kk => ?_⟩
  rw [show stepInstr State.reset = some (.sys 0) by decide]
  simp

theorem witness_RomLoadIsItsByteLoads : Session.start.loading = true ∧ [(0x12 : Byte), 0x00].length ≤ 3584 := by decide

/-- A fatal instruction, and a failed fetch. -/
theorem witness_FatalStepWritesOnlyTheFaultStatus :
    (ready 0x00EE id).fault.halted = false ∧ (run 0x00EE id).map (·.fault.halted) = some true ∧
    (nextOf (step (State.reset.setPc 0xFFF))).map (·.fault.halted) = some true := by decide

theorem witness_OnlyResetLeavesHalted : halted.fault.halted = true ∧
    (nextOf ((Session.mk halted false).apply .tick)).isSome = true ∧
    (nextOf ((Session.mk halted false).apply .reset)).isSome = true := by decide

/-- One step for each of the four replies. -/
theorem witness_ReplySaysWhatTheStepDid :
    stepReply halted = .halted ∧ stepReply (ready 0x00EE id) = .fatal ∧ stepReply (ready 0xF00A id) = .waiting ∧
    stepReply State.reset = .executed ∧ (run 0xF00A id).isSome = true := by decide

/-- The largest PC, and a stack entry at its bound. -/
theorem witness_EveryStepKeepsTheInvariant :
    Inv (State.withStack (State.reset.setPc 0x10FE) 16 0xFFE) ∧
    (nextOf (step (State.withStack (State.reset.setPc 0x10FE) 16 0xFFE))).isSome = true :=
  ⟨⟨by decide, by decide, by decide, by decide⟩, by decide⟩

theorem witness_EveryTransactionKeepsTheInvariant :
    Inv (State.withStack (State.reset.setPc 0xFFE) 16 0xFFE) ∧
    (nextOf ((Session.mk (State.withStack (State.reset.setPc 0xFFE) 16 0xFFE) true).apply (.load 3583 7))).isSome = true :=
  ⟨⟨by decide, by decide, by decide, by decide⟩, by decide⟩

/-- The premise of every statement about exec's next state, for an instruction of each kind named there. -/
theorem witness_PcChangesInFourWays :
    (nextOf (exec (.seImm 0 0) State.reset)).map (·.pc) = some 0x204 ∧
    (nextOf (exec (.jpV0 0xFFF) (State.reset.setV 0 0xFF))).map (·.pc) = some 0x10FE ∧
    (nextOf (exec (.ldVxK 0) State.reset)).map (·.pc) = some 0x200 := by decide

theorem witness_RegistersWrittenAreThoseListed :
    (nextOf (exec (.ldImm 0 1) State.reset)).isSome = true ∧ (1 : RegIdx) ∉ regWrites (.ldImm 0 1) := by decide

theorem witness_OnlyCallAndRetReachTheStack :
    (nextOf (exec (.call 0) State.reset)).map (·.sp) = some 1 ∧ (∀ nnn, Instr.ret ≠ .call nnn) ∧ Instr.cls ≠ .ret :=
  ⟨by decide, by simp, by decide⟩

theorem witness_OnlyClsAndDrwReachTheDisplay :
    (nextOf (exec .cls State.reset)).map (fun t => (t.fault, t.dirty)) = some (State.reset.fault, true) ∧
    State.reset.fault.halted = false ∧ Instr.ret ≠ .cls ∧ (∀ x y n, Instr.ret ≠ .drw x y n) :=
  ⟨by decide, rfl, by decide, by simp⟩

theorem witness_OnlyTheStoresChangeMemory : State.reset.mem.wf = true ∧
    (nextOf (exec (.ldB 0) ((State.reset.setV 0 1).setI 0x300))).map (·.byteAt 0x302) = some 1 ∧
    State.reset.byteAt 0x302 = 0 := by decide

theorem witness_OnlyIndexInstructionsWriteI :
    (nextOf (exec (.ldI 1) State.reset)).map (·.i) = some 1 ∧ State.reset.i = 0 := by decide

theorem witness_TimersAndKeysHaveTheirOwnWriters :
    (nextOf (exec .cls State.reset)).isSome = true ∧ (∀ x, Instr.cls ≠ .ldDtVx x) ∧ (∀ x, Instr.cls ≠ .ldStVx x) :=
  ⟨by decide, by simp, by simp⟩

theorem witness_StepsDoNotReadSoundOrDirty : (nextOf (step State.reset)).isSome = true := by decide

end Sys2Proof.Tests
end

section
/-! SUPPORT and PROOFS of the scope family (spec/00_scope.md): every step has a next state, and RND. The frame rules of
`writeReg` and `afterDraw` hold for any `Writes` that names what they write, so that they chain with `Frame.trans`. -/

namespace Sys2Proof.Machine

/-! ## Every step has a next state (spec/00_scope.md R5) -/

/-- A raised condition ends an instruction in a next state too, its fatal entry (spec/60_exceptions.md R213). -/
theorem exists_commit_eq_next (w : Word) (s : State) (r : Except Fault State) : ∃ t, commit w s r = .next t := by
  cases r with
  | ok t => exact ⟨t, commit_ok w s t⟩
  | error f => exact ⟨fatalEntry w f s, commit_error w s f⟩

/-- With a key pressed, Fx0A takes the highest one; with none it retries in the same state. -/
theorem exists_execLdVxK_eq_next (x : RegIdx) (s : State) : ∃ t, execLdVxK x s = .next t := by
  unfold execLdVxK
  cases highestKey s with
  | none => exact ⟨s, rfl⟩
  | some j => exact ⟨_, rfl⟩

/-- The instructions that can raise a condition end in `commit`, Fx0A splits on the keypad, and every other one answers its
next state outright. -/
theorem exists_exec_eq_next (i : Instr) (s : State) : ∃ t, exec i s = .next t := by
  cases i with
  | ret | call | drw | skp | sknp | ldB | ldMemVx | ldVxMem => exact exists_commit_eq_next _ s _
  | ldVxK x => exact exists_execLdVxK_eq_next x s
  | _ => exact ⟨_, rfl⟩

/-- Each branch of R71 answers a next state: halted, a failed fetch, an illegal word, an instruction. -/
theorem exists_step_eq_next (s : State) : ∃ t, step s = .next t := by
  cases hh : s.fault.halted with
  | true => exact ⟨s, step_of_halted hh⟩
  | false =>
    cases hf : fetchWord s with
    | error f => exact ⟨_, step_of_fetch_error hh hf⟩
    | ok w =>
      cases hd : decode w with
      | error e => exact ⟨_, step_of_decode_error hh hf hd⟩
      | ok i => exact step_of_decode_ok hh hf hd ▸ exists_exec_eq_next i s

/-- Settles O9: `exec` by its instructions, then `step` by the branches of R71. -/
theorem everyStepHasANextState : Obligations.EveryStepHasANextState :=
  ⟨exists_step_eq_next, exists_exec_eq_next⟩

/-! ## Frames -/

theorem Frame.trans {w : Writes} {s t u : State} (hst : Frame w s t) (htu : Frame w t u) : Frame w s u where
  regs r hr := (htu.regs r hr).trans (hst.regs r hr)
  index h := (htu.index h).trans (hst.index h)
  stackPointer h := (htu.stackPointer h).trans (hst.stackPointer h)
  stackEntries h := (htu.stackEntries h).trans (hst.stackEntries h)
  delay h := (htu.delay h).trans (hst.delay h)
  sound h := (htu.sound h).trans (hst.sound h)
  pixels h c r := (htu.pixels h c r).trans (hst.pixels h c r)
  dirty h := (htu.dirty h).trans (hst.dirty h)
  keys := htu.keys.trans hst.keys
  bytes a ha := (htu.bytes a ha).trans (hst.bytes a ha)
  fault := htu.fault.trans hst.fault
  port h := (htu.port h).trans (hst.port h)
  draws h := (htu.draws h).trans (hst.draws h)

theorem frame_writeReg {w : Writes} {x : RegIdx} (hx : x ∈ w.regs) (b : Byte) (s : State) :
    Frame w s (writeReg x b s) where
  regs r hr := by
    have hne : x ≠ r := fun h => hr (h ▸ hx)
    simp [writeReg, hne]
  index _ := rfl
  stackPointer _ := rfl
  stackEntries _ := rfl
  delay _ := rfl
  sound _ := rfl
  pixels _ _ _ := rfl
  dirty _ := rfl
  keys := rfl
  bytes _ _ := rfl
  fault := rfl
  port _ := rfl
  draws _ := rfl

theorem frame_afterDraw {w : Writes} (hw : w.random = true) (s : State) : Frame w s (afterDraw s) where
  regs r _ := State.getV_afterDraw s r
  index _ := afterDraw_i s
  stackPointer _ := afterDraw_sp s
  stackEntries _ := afterDraw_stack s
  delay _ := afterDraw_dt s
  sound _ := afterDraw_st s
  pixels _ c r := congrArg (Display.pixel · c r) (afterDraw_disp s)
  dirty _ := afterDraw_dirty s
  keys := afterDraw_key s
  bytes a _ := congrArg (Memory.read · a) (afterDraw_mem s)
  fault := afterDraw_fault s
  port h := by simp [hw] at h
  draws h := by simp [hw] at h

/-! ## RND (spec/41_register_alu.md R133) -/

@[simp] theorem getV_writeReg_same (x : RegIdx) (b : Byte) (s : State) : (writeReg x b s).getV x = b := by
  simp [writeReg]

@[simp] theorem writeReg_pc (x : RegIdx) (b : Byte) (s : State) : (writeReg x b s).pc = s.pc + 2 := rfl
@[simp] theorem writeReg_randPort (x : RegIdx) (b : Byte) (s : State) : (writeReg x b s).randPort = s.randPort := rfl
@[simp] theorem writeReg_randDraws (x : RegIdx) (b : Byte) (s : State) :
    (writeReg x b s).randDraws = s.randDraws := rfl

theorem exec_rnd (x : RegIdx) (kk : Byte) (s : State) :
    exec (.rnd x kk) s = .next (writeReg x (randByte s &&& kk) (afterDraw s)) := rfl

/-- What RND leaves unchanged, whether the host supplies the byte or not. -/
theorem frame_rnd (x : RegIdx) (b : Byte) (s : State) :
    Frame { regs := [x], random := true } s (writeReg x b (afterDraw s)) :=
  (frame_afterDraw rfl s).trans (frame_writeReg (List.mem_singleton.2 rfl) b _)

/-- The word of format XKK as the number that its fields spell (spec/30_encoding.md R74). -/
theorem ofNat_eq_wordXKK (f : Nibble) (x : RegIdx) (kk : Byte) :
    BitVec.ofNat 16 (f.toNat * 0x1000 + 0x100 * x.val + kk.toNat) = wordXKK f x kk := by
  have h : f.toNat * 0x1000 + 0x100 * x.val + kk.toNat = (wordXKK f x kk).toNat := by
    rw [toNat_wordXKK]
    omega
  rw [h, BitVec.ofNat_toNat, BitVec.setWidth_eq]

theorem decodesTo_rnd (x : RegIdx) (kk : Byte) : DecodesTo (0xC000 + 0x100 * x.val + kk.toNat) (.rnd x kk) := by
  have hw : BitVec.ofNat 16 (0xC000 + 0x100 * x.val + kk.toNat) = wordXKK 0xC x kk := ofNat_eq_wordXKK 0xC x kk
  simp [DecodesTo, hw, decode]

/-- Settles O24: the draw takes the port's byte where there is one and a free byte where there is none. -/
theorem rndMasksOneDraw : Obligations.RndMasksOneDraw := by
  intro x kk s
  refine ⟨decodesTo_rnd x kk, fun b hb => ⟨_, exec_rnd x kk s, ?_, ?_, ?_, by simp, frame_rnd x _ s⟩,
    fun hn => ⟨_, exec_rnd x kk s, ?_, ?_, ?_, by simp, frame_rnd x _ s⟩⟩
  · simp [randByte_of_some hb]
  · simp [afterDraw_of_some hb]
  · simp [afterDraw_of_some hb]
  · simp [randByte_of_none hn]
  · simp [afterDraw_of_none hn, hn]
  · simp [afterDraw_of_none hn]

end Sys2Proof.Machine
end

section
/-! SUPPORT and PROOFS of the state family (spec/10_state.md): what an instruction and a step can do, said once as `Effect`
and `StepEffect`, and the whole-machine rules derived from them; then what no instruction but RND reads, as a state that
differs there. -/

namespace Sys2Proof.Machine

/-! ## What an instruction can do -/

/-- Everything an instruction i can lead to from s: where it writes registers, only those of its row of R22. -/
inductive Effect (i : Instr) (s : State) : State → Prop
  /-- Fx0A with no key pressed (R193). -/
  | waits (x : RegIdx) (hi : i = .ldVxK x) : Effect i s s
  /-- A fatal condition (R213). -/
  | fatal (f : Fault) : Effect i s (fatalEntry (encode i) f s)
  /-- SYS, which writes nothing, and the instructions that write registers alone; RND also moves its source on. -/
  | registers (v : Vector Byte 16) (p : Option Byte) (n : Nat) (hv : ∀ r, r ∉ regWrites i → v[r] = s.v[r]) :
    Effect i s { s with v := v, pc := s.pc + 2, randPort := p, randDraws := n }
  | skips (p : Bool) (hi : isSkip i = true) : Effect i s (s.skipIf p)
  | jumps (nnn : Addr12) (hi : i = .jp nnn) : Effect i s (s.setPc (literalAddr nnn))
  | jumpsV0 (nnn : Addr12) (hi : i = .jpV0 nnn) : Effect i s (s.setPc (indexedTarget nnn (s.getV 0)))
  | calls (nnn : Addr12) (k : Fin 16) (hi : i = .call nnn) (hk : s.sp.val = k.val) :
    Effect i s { s with stack := s.stack.set k s.pc, sp := k.succ, pc := literalAddr nnn }
  | returns (k : Fin 16) (hi : i = .ret) (hk : s.sp.val = k.val + 1) :
    Effect i s { s with pc := s.stack[k] + 2, sp := k.castSucc }
  | draws (v : Vector Byte 16) (d : Display) (hi : i = .cls ∨ ∃ x y n, i = .drw x y n)
      (hv : ∀ r, r ∉ regWrites i → v[r] = s.v[r]) :
    Effect i s { s with v := v, disp := d, dirty := true, pc := s.pc + 2 }
  | indexes (v : Vector Byte 16) (a : Word) (hi : (∃ nnn, i = .ldI nnn) ∨ (∃ x, i = .addI x) ∨ ∃ x, i = .ldF x)
      (hv : ∀ r, r ∉ regWrites i → v[r] = s.v[r]) :
    Effect i s { s with v := v, i := a, pc := s.pc + 2 }
  | stores (bytes : List Byte)
      (hi : (∃ x, i = .ldB x ∧ bytes = bcdDigits (s.getV x)) ∨ ∃ x, i = .ldMemVx x ∧ bytes = regsUpTo s x)
      (hr : dataBase s + bytes.length ≤ memSize) :
    Effect i s { s with mem := Memory.writeAll s.mem (dataBase s) bytes, pc := s.pc + 2 }
  | delays (x : RegIdx) (hi : i = .ldDtVx x) : Effect i s { s with dt := s.getV x, pc := s.pc + 2 }
  | sounds (x : RegIdx) (hi : i = .ldStVx x) : Effect i s { s with st := s.getV x, pc := s.pc + 2 }

/-- The instructions that write registers alone, from what each register reads afterwards. -/
theorem Effect.of_getV {i : Instr} {s u : State} (hrest : u = { s with v := u.v })
    (hv : ∀ r, r ∉ regWrites i → u.getV r = s.getV r) : Effect i s u.advance := by
  rw [hrest]
  exact .registers u.v s.randPort s.randDraws hv

theorem getV_setV_of_not_mem {x r : RegIdx} (hr : r ∉ [x]) (b : Byte) (s : State) :
    (s.setV x b).getV r = s.getV r := by
  have hne : x ≠ r := fun h => hr (h ▸ List.mem_singleton_self x)
  simp [hne]

theorem Effect.of_writeReg {i : Instr} {x : RegIdx} (b : Byte) (s : State) (hw : regWrites i = [x]) :
    Effect i s (writeReg x b s) :=
  .of_getV rfl fun _ hr => getV_setV_of_not_mem (hw ▸ hr) b s

theorem Effect.of_flagThenResult {i : Instr} {x : RegIdx} (p : Params) (flag result : Byte → Byte → Byte) (y : RegIdx)
    (s : State) (hw : regWrites i = [RegIdx.vf, x]) : Effect i s (flagThenResult p flag result x y s) := by
  refine .of_getV rfl fun r hr => ?_
  rw [hw, List.mem_cons, List.mem_singleton, not_or] at hr
  obtain ⟨hvf, hx⟩ := hr
  simp [Ne.symm hvf, Ne.symm hx]

theorem Effect.of_rnd (x : RegIdx) (kk : Byte) (s : State) :
    Effect (.rnd x kk) s (writeReg x (randByte s &&& kk) (afterDraw s)) := by
  have hrest : writeReg x (randByte s &&& kk) (afterDraw s) =
      { s with v := s.v.set x (randByte s &&& kk), pc := s.pc + 2,
               randPort := (afterDraw s).randPort, randDraws := (afterDraw s).randDraws } := by
    cases hp : s.randPort with
    | none => rw [afterDraw_of_none hp]; rfl
    | some b => rw [afterDraw_of_some hp]; rfl
  rw [hrest]
  exact .registers _ _ _ fun _ hr => getV_setV_of_not_mem hr _ s

/-- An instruction that can raise a condition: its fatal entry, or what it does with the value its check answers. -/
theorem Effect.of_commit {α : Type} {i : Instr} {s t : State} {r : Except Fault α} {g : α → State}
    (h : commit (encode i) s (r.map g) = .next t) (hok : ∀ a, r = .ok a → Effect i s (g a)) : Effect i s t := by
  cases r with
  | error f => cases h; exact .fatal f
  | ok a => cases h; exact hok a rfl

theorem Effect.of_popCall {s u : State} (hu : popCall s = .ok u) : Effect .ret s u.advance := by
  rcases popCall_cases s with ⟨hsp, h⟩ | ⟨-, h⟩ <;> rw [h] at hu <;> cases hu
  exact .returns ⟨s.sp.val - 1, by omega⟩ rfl (by simp only; omega)

theorem Effect.of_pushCall {s u : State} {nnn : Addr12} (hu : pushCall s s.pc = .ok u) :
    Effect (.call nnn) s (u.setPc (literalAddr nnn)) := by
  rcases pushCall_cases s s.pc with ⟨hsp, h⟩ | ⟨-, h⟩ <;> rw [h] at hu <;> cases hu
  exact .calls nnn ⟨s.sp.val, hsp⟩ rfl rfl

/-- A store of some bytes that is not fatal reaches memory alone, and inside its range. -/
theorem storeBytes_eq_ok {s u : State} {base : Nat} {bytes : List Byte} (hne : bytes ≠ [])
    (hu : storeBytes s base bytes = .ok u) :
    base + bytes.length ≤ memSize ∧ u = s.setMem (Memory.writeAll s.mem base bytes) := by
  rw [storeBytes_eq] at hu
  split at hu <;> cases hu
  next hr => exact ⟨hr.resolve_right fun h => hne (List.length_eq_zero_iff.1 h), rfl⟩

theorem regsUpTo_ne_nil (s : State) (x : RegIdx) : regsUpTo s x ≠ [] := by
  apply List.ne_nil_of_length_pos
  simp [regsUpTo]

theorem Effect.of_drawWith (p : Params) (x y : RegIdx) (n : Nibble) (bytes : List Byte) (s : State) :
    Effect (.drw x y n) s (drawWith p x y bytes s) := by
  refine .draws (drawWith p x y bytes s).v _ (.inr ⟨x, y, n, rfl⟩) fun r hr => ?_
  have hvf : r ≠ RegIdx.vf := fun h => hr (h ▸ List.mem_singleton_self _)
  change (drawWith p x y bytes s).getV r = s.getV r
  simp [drawWith, Ne.symm hvf]

/-- Under FX1E_VF the row of Fx1E lists VF, and without it nothing. -/
theorem Effect.of_addI (x : RegIdx) (s : State) : Effect (.addI x) s (addIWith Config.params x s) := by
  have hrest : addIWith Config.params x s =
      { s with v := (addIWith Config.params x s).v, i := addToIndex s.i (s.getV x), pc := s.pc + 2 } := by
    unfold addIWith
    split <;> rfl
  rw [hrest]
  refine .indexes _ _ (.inr (.inl ⟨x, rfl⟩)) fun r hr => ?_
  change (addIWith Config.params x s).getV r = s.getV r
  cases hp : Config.fx1eVf with
  | true =>
    have hvf : r ≠ RegIdx.vf := by simpa [regWrites, hp] using hr
    simp [addIWith, Config.params, hp, Ne.symm hvf]
  | false => simp [addIWith, Config.params, hp]

/-- Fx65 writes V0 to Vx: a register above x lies beyond the bytes loaded. -/
theorem Effect.of_loadV {x : RegIdx} {s : State} {bytes : List Byte}
    (hb : loadBytes s (dataBase s) (blockLength x) = .ok bytes) : Effect (.ldVxMem x) s (s.loadV bytes).advance := by
  have hlen : bytes.length = x.val + 1 := by
    rw [loadBytes_eq] at hb
    split at hb <;> cases hb
    simp [blockLength]
  refine .of_getV rfl fun r hr => ?_
  have hlt : x < r := by simpa [regWrites] using hr
  have hout : bytes.length ≤ r.val := by rw [hlen]; exact hlt
  simp [List.getElem?_eq_none hout]

theorem execLdVxK_of_none {x : RegIdx} {s : State} (hk : highestKey s = none) : execLdVxK x s = .next s := by
  simp [execLdVxK, hk]

theorem execLdVxK_of_some {x : RegIdx} {s : State} {j : Fin 16} (hk : highestKey s = some j) :
    execLdVxK x s = .next (writeReg x (BitVec.ofNat 8 j.val) s) := by
  simp [execLdVxK, hk, writeReg]

theorem Effect.of_execLdVxK {x : RegIdx} {s t : State} (h : execLdVxK x s = .next t) : Effect (.ldVxK x) s t := by
  cases hk : highestKey s with
  | none =>
    rw [execLdVxK_of_none hk] at h
    cases h
    exact .waits x rfl
  | some j =>
    rw [execLdVxK_of_some hk] at h
    cases h
    exact .of_writeReg _ s rfl

/-- The inversion of exec: a case per way an instruction can go. -/
theorem exec_effect {i : Instr} {s t : State} (h : exec i s = .next t) : Effect i s t := by
  cases i with
  | cls => cases h; exact .draws s.v _ (.inl rfl) fun _ _ => rfl
  | ret => exact .of_commit h fun u hu => .of_popCall hu
  | sys nnn => cases h; exact .registers s.v _ _ fun _ _ => rfl
  | jp nnn => cases h; exact .jumps nnn rfl
  | call nnn => exact .of_commit h fun u hu => .of_pushCall hu
  | seImm | sneImm | seReg | sneReg => cases h; exact .skips _ rfl
  | ldImm | addImm | ldReg | orReg | andReg | xorReg | ldVxDt => cases h; exact .of_writeReg _ s rfl
  | addReg | sub | shr | subn | shl => cases h; exact .of_flagThenResult _ _ _ _ s rfl
  | ldI nnn => cases h; exact .indexes s.v _ (.inl ⟨nnn, rfl⟩) fun _ _ => rfl
  | jpV0 nnn => cases h; exact .jumpsV0 nnn rfl
  | rnd x kk => cases h; exact .of_rnd x kk s
  | drw x y n => exact .of_commit h fun bytes _ => .of_drawWith _ x y n bytes s
  | skp | sknp => exact .of_commit h fun pressed _ => .skips _ rfl
  | ldVxK x => exact .of_execLdVxK h
  | ldDtVx x => cases h; exact .delays x rfl
  | ldStVx x => cases h; exact .sounds x rfl
  | addI x => cases h; exact .of_addI x s
  | ldF x => cases h; exact .indexes s.v _ (.inr (.inr ⟨x, rfl⟩)) fun _ _ => rfl
  | ldB x =>
    refine .of_commit h fun u hu => ?_
    obtain ⟨hr, rfl⟩ := storeBytes_eq_ok (List.cons_ne_nil _ _) hu
    exact .stores _ (.inl ⟨x, rfl, rfl⟩) hr
  | ldMemVx x =>
    refine .of_commit h fun u hu => ?_
    obtain ⟨hr, rfl⟩ := storeBytes_eq_ok (regsUpTo_ne_nil s x) hu
    exact .stores _ (.inr ⟨x, rfl, rfl⟩) hr
  | ldVxMem x => exact .of_commit h fun bytes hb => .of_loadV hb

/-! ## What each instruction leaves unchanged (spec/10_state.md R22-R32) -/

theorem toNat_literalAddr (nnn : Addr12) : (literalAddr nnn).toNat = nnn.toNat := by
  have hlt : nnn.toNat < 65536 := by omega
  simpa [literalAddr] using hlt

/-- A 12-bit literal and a byte do not reach 2^16 (spec/40_control_flow.md R109). -/
theorem toNat_indexedTarget (nnn : Addr12) (b : Byte) : (indexedTarget nnn b).toNat = nnn.toNat + b.toNat := by
  have hlt : nnn.toNat + b.toNat < 65536 := by omega
  simpa [indexedTarget] using hlt

/-- Settles O52: the ways of R23, read off the effect. -/
theorem pcChangesInFourWays : Obligations.PcChangesInFourWays := by
  intro i s t h
  cases exec_effect h with
  | waits x hi => exact .inr (.inr (.inr (.inr (.inr (.inl ⟨rfl, x, hi⟩)))))
  | fatal f => exact .inr (.inr (.inr (.inr (.inr (.inr ⟨f.cause, f.addr, rfl⟩)))))
  | skips p hi =>
    cases p with
    | true => exact .inr (.inl ⟨hi, rfl⟩)
    | false => exact .inl rfl
  | jumps nnn hi => exact .inr (.inr (.inl ⟨nnn, .inl hi, toNat_literalAddr nnn⟩))
  | calls nnn k hi => exact .inr (.inr (.inl ⟨nnn, .inr hi, toNat_literalAddr nnn⟩))
  | jumpsV0 nnn hi => exact .inr (.inr (.inr (.inl ⟨nnn, hi, toNat_indexedTarget nnn _⟩)))
  | returns k hi hk => exact .inr (.inr (.inr (.inr (.inl ⟨hi, k, hk, rfl⟩))))
  | registers | draws | indexes | stores | delays | sounds => exact .inl rfl

/-- Settles O53: an effect that writes registers says which. -/
theorem registersWrittenAreThoseListed : Obligations.RegistersWrittenAreThoseListed := by
  intro i s t r h hr
  cases exec_effect h with
  | registers v p n hv => exact hv r hr
  | draws v d hi hv => exact hv r hr
  | indexes v a hi hv => exact hv r hr
  | skips p => exact State.getV_skipIf s p r
  | _ => rfl

/-- Settles O54: CALL pushes one entry, RET takes one off and writes none. -/
theorem onlyCallAndRetReachTheStack : Obligations.OnlyCallAndRetReachTheStack := by
  intro i s t h
  cases exec_effect h with
  | calls nnn k hi hk =>
    exact ⟨fun hn => absurd hi (hn nnn), fun hn => absurd hi (hn nnn), .inr (.inl (by simp [hk]))⟩
  | returns k hi hk => exact ⟨fun _ => rfl, fun _ hn => absurd hi hn, .inr (.inr (by simp [hk]))⟩
  | skips p => simp
  | _ => exact ⟨fun _ => rfl, fun _ _ => rfl, .inl rfl⟩

/-- A draw that is not fatal sets dirty (spec/43_display_sprite.md R175). -/
theorem drwWith_sets_dirty {p : Params} {x y : RegIdx} {n : Nibble} {s t : State} (h : drwWith p x y n s = .ok t) :
    t.dirty = true := by
  unfold drwWith at h
  cases hb : loadBytes s (dataBase s) n.toNat <;> rw [hb] at h <;> cases h
  rfl

/-- Settles O55. A fatal DRW is shut out by the fault status, which it writes. -/
theorem onlyClsAndDrwReachTheDisplay : Obligations.OnlyClsAndDrwReachTheDisplay := by
  intro i s t h
  constructor
  · intro hcls hdrw
    cases exec_effect h with
    | draws v d hi =>
      obtain rfl | ⟨x, y, n, rfl⟩ := hi
      · exact absurd rfl hcls
      · exact absurd rfl (hdrw x y n)
    | skips p => simp
    | _ => exact ⟨rfl, rfl⟩
  · rintro (rfl | ⟨x, y, n, rfl⟩) hfault hrun
    · cases h
      rfl
    · obtain hr | ⟨f, -, rfl⟩ := commit_eq_next h
      · exact drwWith_sets_dirty hr
      · rw [← hfault] at hrun
        cases hrun

/-- Settles O57: an instruction outside the effect `indexes` leaves I. -/
theorem onlyIndexInstructionsWriteI : Obligations.OnlyIndexInstructionsWriteI := by
  intro i s t h hne
  cases exec_effect h with
  | indexes v a hi => exact hi
  | skips p => simp at hne
  | _ => exact absurd rfl hne

/-- Settles O58: the effects `delays` and `sounds` alone reach a timer, and none reaches a key. -/
theorem timersAndKeysHaveTheirOwnWriters : Obligations.TimersAndKeysHaveTheirOwnWriters := by
  intro i s t h
  cases exec_effect h with
  | delays x hi => exact ⟨fun hn => absurd hi (hn x), fun _ => rfl, rfl⟩
  | sounds x hi => exact ⟨fun _ => rfl, fun hn => absurd hi (hn x), rfl⟩
  | skips p => simp
  | _ => exact ⟨fun _ => rfl, fun _ => rfl, rfl⟩

/-! ## What a step can do -/

theorem fetchWord_of_fetchable {s : State} (h : s.pc.toNat ≤ 0xFFE) : fetchWord s = .ok (wordAtPc s) := by
  rw [fetchWord_eq, if_pos h]
  rfl

/-- A fetch that answers reads the word at PC, and its bytes lie in memory. -/
theorem fetchWord_eq_ok {s : State} {w : Word} (h : fetchWord s = .ok w) : s.pc.toNat ≤ 0xFFE ∧ w = wordAtPc s := by
  rw [fetchWord_eq] at h
  split at h <;> cases h
  next hpc => exact ⟨hpc, rfl⟩

theorem stepWord_of_runs {s : State} (h : Runs s) : stepWord s = some (wordAtPc s) := by
  simp [stepWord, h.running, fetchWord_of_fetchable h.fetchable]

theorem stepInstr_of_runs {s : State} {i : Instr} (h : Runs s) (hd : decode (wordAtPc s) = .ok i) :
    stepInstr s = some i := by
  simp [stepInstr, stepWord_of_runs h, hd]

/-- Everything a step of s can lead to (spec/30_encoding.md R71, spec/60_exceptions.md R216). -/
inductive StepEffect (s : State) : State → Prop
  | absorbed (hh : s.fault.halted = true) : StepEffect s s
  | fetchFails (hh : s.fault.halted = false) (f : Fault) (hf : fetchWord s = .error f) : StepEffect s (fatalEntry 0 f s)
  | executes (hs : Runs s) (i : Instr) (t : State) (hd : decode (wordAtPc s) = .ok i) (ht : exec i s = .next t) :
    StepEffect s t
  | illegal (hs : Runs s) (e : DecodeError) (hd : decode (wordAtPc s) = .error e) : StepEffect s s.advance

theorem step_effect {s t : State} (h : step s = .next t) : StepEffect s t := by
  obtain ⟨hh, rfl⟩ | ⟨hh, f, hf, rfl⟩ | ⟨hh, w, i, hf, hd, ht⟩ | ⟨hh, w, e, hf, hd, rfl⟩ := step_cases h
  · exact .absorbed hh
  · exact .fetchFails hh f hf
  · obtain ⟨hpc, rfl⟩ := fetchWord_eq_ok hf
    exact .executes ⟨hh, hpc⟩ i t hd ht
  · obtain ⟨hpc, rfl⟩ := fetchWord_eq_ok hf
    exact .illegal ⟨hh, hpc⟩ e hd

/-! ## The invariant (spec/10_state.md R25, R28, R33) -/

/-- The invariant speaks of memory, PC, the stack entries and the fault status, and of nothing else. -/
theorem Inv.of_eq {s t : State} (hs : Inv s) (hmem : t.mem = s.mem) (hpc : t.pc = s.pc) (hstack : t.stack = s.stack)
    (hfault : t.fault = s.fault) : Inv t where
  mem_wf := hmem ▸ hs.mem_wf
  pc_le := hpc ▸ hs.pc_le
  stack_le := hstack ▸ hs.stack_le
  fault_consistent := hfault ▸ hs.fault_consistent

/-- Settles O49: memory lists nothing, PC is 0x200, and the stack and the fault status are zero. -/
theorem resetMeetsTheInvariant : Obligations.ResetMeetsTheInvariant :=
  ⟨reset_mem_wf, by decide, by decide, rfl⟩

theorem Fault.cause_ne_none (f : Fault) : f.cause ≠ .none := by cases f <;> simp [Fault.cause]

theorem fatalEntry_keeps_inv {s : State} (hs : Inv s) (w : Word) (f : Fault) : Inv (fatalEntry w f s) where
  mem_wf := hs.mem_wf
  pc_le := hs.pc_le
  stack_le := hs.stack_le
  fault_consistent := by simp [FaultStatus.consistent, f.cause_ne_none]

theorem advance_keeps_inv {s : State} (hs : Inv s) (hpc : s.pc.toNat ≤ 0xFFE) : Inv s.advance where
  mem_wf := hs.mem_wf
  pc_le := by simp only [State.advance_pc]; bv_omega
  stack_le := hs.stack_le
  fault_consistent := hs.fault_consistent

/-- The largest PC is that of JP V0, 0xFFF + 0xFF; every other way starts from an address that was fetched. -/
theorem exec_pc_le {i : Instr} {s t : State} (hs : Inv s) (hpc : s.pc.toNat ≤ 0xFFE) (h : exec i s = .next t) :
    t.pc.toNat ≤ 0x10FE := by
  obtain h2 | ⟨-, h4⟩ | ⟨nnn, -, hn⟩ | ⟨nnn, -, hn⟩ | ⟨-, k, -, hk⟩ | ⟨rfl, -⟩ | ⟨cause, addr, rfl⟩ :=
    pcChangesInFourWays i s t h
  · rw [h2]; bv_omega
  · rw [h4]; bv_omega
  · omega
  · omega
  · have := hs.stack_le k
    rw [hk]; bv_omega
  · exact hs.pc_le
  · exact hs.pc_le

/-- What CALL pushes is an address that was fetched, and a store stays inside memory. -/
theorem exec_keeps_inv {i : Instr} {s t : State} (hs : Inv s) (hpc : s.pc.toNat ≤ 0xFFE) (h : exec i s = .next t) :
    Inv t := by
  have hpc' := exec_pc_le hs hpc h
  cases exec_effect h with
  | fatal f => exact fatalEntry_keeps_inv hs _ f
  | calls nnn k hi hk =>
    refine ⟨hs.mem_wf, hpc', fun j => ?_, hs.fault_consistent⟩
    have hj := hs.stack_le j
    simp only [Fin.getElem_fin, Vector.getElem_set] at hj ⊢
    split
    · exact hpc
    · exact hj
  | stores bytes hi hr =>
    exact ⟨Memory.wf_writeAll bytes _ _ hs.mem_wf hr, hpc', hs.stack_le, hs.fault_consistent⟩
  | skips p => exact ⟨by simpa using hs.mem_wf, hpc', by simpa using hs.stack_le, by simpa using hs.fault_consistent⟩
  | _ => exact ⟨hs.mem_wf, hpc', hs.stack_le, hs.fault_consistent⟩

/-- Settles O50, by what a step can do. -/
theorem everyStepKeepsTheInvariant : Obligations.EveryStepKeepsTheInvariant := by
  intro s t hs h
  cases step_effect h with
  | absorbed => exact hs
  | fetchFails hh f => exact fatalEntry_keeps_inv hs 0 f
  | executes hr i _ hd ht => exact exec_keeps_inv hs hr.fetchable ht
  | illegal hr => exact advance_keeps_inv hs hr.fetchable

/-! ## The host's transactions (spec/60_exceptions.md R227) -/

/-- A load that is not refused fits in memory. -/
theorem apply_load_eq_next {h h' : Session} {k : Nat} {b : Byte} (ha : h.apply (.load k b) = .next h') :
    k < romMax ∧ h' = { h with machine := loadByte k b h.machine } := by
  simp only [Session.apply] at ha
  split at ha
  · cases ha
  · split at ha <;> cases ha
    next hk => exact ⟨hk, rfl⟩

theorem apply_loadRom_eq_next {h h' : Session} {image : List Byte} (ha : h.apply (.loadRom image) = .next h') :
    image.length ≤ romMax ∧ h' = { h with machine := loadImage image h.machine } := by
  simp only [Session.apply] at ha
  split at ha
  · cases ha
  · split at ha <;> cases ha
    next hl => exact ⟨hl, rfl⟩

theorem setMem_keeps_inv {s : State} (hs : Inv s) {m : Memory} (hm : m.wf = true) : Inv (s.setMem m) :=
  ⟨hm, hs.pc_le, hs.stack_le, hs.fault_consistent⟩

/-- Settles O51: the loads by their bounds, the step by O50, and no other transaction reaches what the invariant names. -/
theorem everyTransactionKeepsTheInvariant : Obligations.EveryTransactionKeepsTheInvariant := by
  intro h h' tx hs ha
  cases tx with
  | reset =>
    cases ha
    exact resetMeetsTheInvariant.of_eq rfl rfl rfl rfl
  | load k b =>
    obtain ⟨hk, rfl⟩ := apply_load_eq_next ha
    exact setMem_keeps_inv hs (loadByte_keeps_wf b hs.mem_wf hk)
  | loadRom image =>
    obtain ⟨hl, rfl⟩ := apply_loadRom_eq_next ha
    exact setMem_keeps_inv hs (loadImage_keeps_wf hs.mem_wf hl)
  | step b =>
    obtain ⟨u, hu, rfl⟩ := apply_step_eq_next ha
    have hsupplied : Inv (presentRand b h.machine) := hs.of_eq rfl rfl rfl rfl
    exact (everyStepKeepsTheInvariant _ u hsupplied hu).of_eq rfl rfl rfl rfl
  | tick =>
    cases ha
    exact hs.of_eq (tick_mem _) (tick_pc _) (tick_stack _) (tick_fault _)
  | keySet m =>
    cases ha
    exact hs.of_eq (keySet_mem _ m) (keySet_pc _ m) (keySet_stack _ m) (keySet_fault _ m)
  | dirtyClr =>
    cases ha
    exact hs.of_eq (dirtyClr_mem _) (dirtyClr_pc _) (dirtyClr_stack _) (dirtyClr_fault _)

/-- A step of another instruction than Fx15 leaves DT (R29). -/
theorem step_dt {s t : State} (h : step s = .next t) (hi : ∀ x, stepInstr s ≠ some (.ldDtVx x)) : t.dt = s.dt := by
  cases step_effect h with
  | absorbed | fetchFails | illegal => rfl
  | executes hr i _ hd ht =>
    refine (timersAndKeysHaveTheirOwnWriters i s t ht).1 fun x hx => hi x ?_
    rw [stepInstr_of_runs hr hd, hx]

theorem toNat_countDown_le (b : Byte) : (countDown b).toNat ≤ b.toNat := by
  unfold countDown
  split
  · bv_omega
  · exact le_refl _

/-- Settles O40: a tick counts down, a step of another instruction leaves DT, and the rest do not reach it. -/
theorem delayTimerOnlyGrowsByFx15 : Obligations.DelayTimerOnlyGrowsByFx15 := by
  intro h h' tx ha hreset hi
  cases tx with
  | reset => exact absurd rfl hreset
  | load k b =>
    obtain ⟨-, rfl⟩ := apply_load_eq_next ha
    exact le_refl _
  | loadRom image =>
    obtain ⟨-, rfl⟩ := apply_loadRom_eq_next ha
    exact le_refl _
  | step b =>
    obtain ⟨u, hu, rfl⟩ := apply_step_eq_next ha
    exact (congrArg BitVec.toNat (step_dt hu (hi ⟨b, rfl⟩))).le
  | tick =>
    cases ha
    exact toNat_countDown_le _
  | keySet | dirtyClr =>
    cases ha
    exact le_refl _

/-! ## The word an instruction was fetched as (spec/30_encoding.md R74, R75; log entry 7) -/

theorem wordNNN_of_fieldF {w : Word} {f : Nibble} (hf : fieldF w = f) : wordNNN f (fieldNNN w) = w :=
  hf ▸ wordNNN_fields w

theorem wordXKK_of_fieldF {w : Word} {f : Nibble} (hf : fieldF w = f) : wordXKK f (fieldX w) (fieldKK w) = w :=
  hf ▸ wordXKK_fields w

theorem wordXKK_of_fieldF_fieldKK {w : Word} {f : Nibble} {kk : Byte} (hf : fieldF w = f) (hk : fieldKK w = kk) :
    wordXKK f (fieldX w) kk = w :=
  hk ▸ wordXKK_of_fieldF hf

theorem wordXYN_of_fieldF_fieldN {w : Word} {f n : Nibble} (hf : fieldF w = f) (hn : fieldN w = n) :
    wordXYN f (fieldX w) (fieldY w) n = w :=
  hf ▸ hn ▸ wordXYN_fields w

theorem encode_of_decodeFamily0 {w : Word} (hf : fieldF w = 0x0#4) : encode (decodeFamily0 w) = w := by
  unfold decodeFamily0
  split
  next h => exact h.symm
  next =>
    split
    next h => exact h.symm
    next => exact wordNNN_of_fieldF hf

theorem encode_of_decodeFamily8 {w : Word} {i : Instr} (hf : fieldF w = 0x8#4) (h : decodeFamily8 w = .ok i) :
    encode i = w := by
  unfold decodeFamily8 at h
  split at h <;> cases h <;> exact wordXYN_of_fieldF_fieldN hf ‹_›

theorem encode_of_decodeFamilyE {w : Word} {i : Instr} (hf : fieldF w = 0xE#4) (h : decodeFamilyE w = .ok i) :
    encode i = w := by
  unfold decodeFamilyE at h
  split at h <;> cases h <;> exact wordXKK_of_fieldF_fieldKK hf ‹_›

theorem encode_of_decodeFamilyF {w : Word} {i : Instr} (hf : fieldF w = 0xF#4) (h : decodeFamilyF w = .ok i) :
    encode i = w := by
  unfold decodeFamilyF at h
  split at h <;> cases h <;> exact wordXKK_of_fieldF_fieldKK hf ‹_›

/-- The word of a decoded instruction is the word it was decoded from, by the families of R75. -/
theorem encode_of_decode {w : Word} {i : Instr} (h : decode w = .ok i) : encode i = w := by
  unfold decode at h
  split at h
  case h_1 hf => cases h; exact encode_of_decodeFamily0 hf
  case h_2 hf | h_3 hf | h_11 hf | h_12 hf => cases h; exact wordNNN_of_fieldF hf
  case h_4 hf | h_5 hf | h_7 hf | h_8 hf | h_13 hf => cases h; exact wordXKK_of_fieldF hf
  case h_6 hf | h_10 hf =>
    split at h <;> cases h
    next hn => exact wordXYN_of_fieldF_fieldN hf hn
  case h_9 hf => exact encode_of_decodeFamily8 hf h
  case h_14 hf => cases h; exact wordXYN_of_fieldF_fieldN hf rfl
  case h_15 hf => exact encode_of_decodeFamilyE hf h
  case h_16 =>
    refine encode_of_decodeFamilyF ?_ h
    generalize fieldF w = f at *
    revert f
    decide

/-! ## The step that halts the machine (spec/60_exceptions.md R212, R213) -/

/-- An instruction writes the fault status in its fatal entry only. -/
theorem Effect.fault_eq {i : Instr} {s t : State} (h : Effect i s t) :
    t.fault = s.fault ∨ ∃ f, t = fatalEntry (encode i) f s := by
  cases h with
  | fatal f => exact .inr ⟨f, rfl⟩
  | skips p => exact .inl (State.skipIf_fault s p)
  | _ => exact .inl rfl

/-- A step that halts a running machine is a fatal entry: of a failed fetch with word 0, or of the instruction at PC. -/
theorem step_halts {s t : State} (h : step s = .next t) (hrun : s.fault.halted = false) (hhalt : t.fault.halted = true) :
    ∃ f, (0xFFE < s.pc.toNat ∧ t = fatalEntry 0 f s) ∨
      (Runs s ∧ (∃ i, decode (wordAtPc s) = .ok i ∧ exec i s = .next t) ∧ t = fatalEntry (wordAtPc s) f s) := by
  have hkept : t.fault ≠ s.fault := by
    intro heq
    rw [heq, hrun] at hhalt
    cases hhalt
  cases step_effect h with
  | absorbed | illegal => exact absurd rfl hkept
  | fetchFails hh f hf =>
    refine ⟨f, .inl ⟨?_, rfl⟩⟩
    by_contra hpc
    rw [fetchWord_of_fetchable (not_lt.1 hpc)] at hf
    cases hf
  | executes hr i _ hd ht =>
    obtain hsame | ⟨f, hf⟩ := (exec_effect ht).fault_eq
    · exact absurd hsame hkept
    · exact ⟨f, .inr ⟨hr, ⟨i, hd, ht⟩, by rw [hf, encode_of_decode hd]⟩⟩

/-- A step that retries Fx0A changes nothing (R193). -/
theorem step_of_stepWaits {s : State} (h : stepWaits s = true) : step s = .next s := by
  unfold stepWaits at h
  split at h
  next w hw =>
    split at h
    next x hd =>
      have hi : stepInstr s = some (.ldVxK x) := by simp [stepInstr, hw, hd]
      have hnone : highestKey s = none := Option.isNone_iff_eq_none.1 h
      exact (step_of_stepInstr hi).trans (execLdVxK_of_none hnone)
    next => cases h
  next => cases h

theorem stepReply_of_halts {s t : State} (h : step s = .next t) (hrun : s.fault.halted = false)
    (hhalt : t.fault.halted = true) : stepReply s = .fatal := by
  have hwaits : stepWaits s = false := by
    by_contra hw
    rw [step_of_stepWaits (by simpa using hw)] at h
    cases h
    rw [hrun] at hhalt
    cases hhalt
  simp [stepReply, hrun, hwaits, h, hhalt]

theorem isLogged_of_decode {w : Word} {i : Instr} (hd : decode w = .ok i) (hi : ∀ nnn, i ≠ .sys nnn) :
    isLogged w = false := by
  unfold isLogged
  rw [hd]
  cases i with
  | sys nnn => exact absurd rfl (hi nnn)
  | _ => rfl

theorem stepLog_of_not_fetchable {s : State} (hpc : 0xFFE < s.pc.toNat) : stepLog s = none := by
  have hw : stepWord s = none := by simp [stepWord, fetchWord_eq, not_le.2 hpc]
  simp [stepLog, hw]

/-- Settles O45. SYS, the one instruction that logs, halts nothing. -/
theorem fatalStepWritesOnlyTheFaultStatus : Obligations.FatalStepWritesOnlyTheFaultStatus := by
  intro s t h hrun hhalt
  have hreply := stepReply_of_halts h hrun hhalt
  obtain ⟨f, ⟨hpc, hf⟩ | ⟨hr, ⟨i, hd, ht⟩, hf⟩⟩ := step_halts h hrun hhalt
  · exact ⟨⟨f.cause, 0, f.addr, f.cause_ne_none, hf, fun hle => by omega⟩, hreply, stepLog_of_not_fetchable hpc⟩
  · have hsys : ∀ nnn, i ≠ .sys nnn := by
      rintro nnn rfl
      cases ht
      exact Bool.false_ne_true (hrun.symm.trans hhalt)
    refine ⟨⟨f.cause, wordAtPc s, f.addr, f.cause_ne_none, hf, fun _ => rfl⟩, hreply, ?_⟩
    simp [stepLog, stepWord_of_runs hr, isLogged_of_decode hd hsys]

/-! ## What no instruction but RND reads (spec/10_state.md R29, R31, R35) -/

/-- s with another dirty flag, sound timer and rand port. -/
def State.withUnread (d : Bool) (e : Byte) (p : Option Byte) (s : State) : State :=
  { s with dirty := d, st := e, randPort := p }

/-- An outcome does not depend on the three: from s it is t, and from s with others it is t with them, except where the
run itself writes dirty or ST. -/
def Unread (run : State → Host.Outcome State Fault Refusal) (s t : State) : Prop :=
  ∃ (dirtyWritten : Option Bool) (soundWritten : Option Byte), ∀ d e p,
    run (s.withUnread d e p) = .next (t.withUnread (dirtyWritten.getD d) (soundWritten.getD e) p)

theorem Unread.of_kept {run : State → Host.Outcome State Fault Refusal} {s t : State}
    (h : ∀ d e p, run (s.withUnread d e p) = .next (t.withUnread d e p)) : Unread run s t :=
  ⟨none, none, h⟩

theorem skipIf_withUnread (d : Bool) (e : Byte) (p : Option Byte) (taken : Bool) (s : State) :
    (s.withUnread d e p).skipIf taken = (s.skipIf taken).withUnread d e p := by
  cases taken <;> rfl

theorem addIWith_withUnread (q : Params) (x : RegIdx) (d : Bool) (e : Byte) (p : Option Byte) (s : State) :
    addIWith q x (s.withUnread d e p) = (addIWith q x s).withUnread d e p := by
  unfold addIWith
  split <;> rfl

theorem popCall_withUnread (d : Bool) (e : Byte) (p : Option Byte) (s : State) :
    popCall (s.withUnread d e p) = (popCall s).map (State.withUnread d e p) := by
  unfold popCall
  split
  next h => rw [dif_pos (by exact h)]; rfl
  next h => rw [dif_neg (by exact h)]; rfl

theorem pushCall_withUnread (a : Word) (d : Bool) (e : Byte) (p : Option Byte) (s : State) :
    pushCall (s.withUnread d e p) a = (pushCall s a).map (State.withUnread d e p) := by
  unfold pushCall
  split
  next h => rw [dif_pos (by exact h)]; rfl
  next h => rw [dif_neg (by exact h)]; rfl

theorem storeBytes_withUnread (base : Nat) (bytes : List Byte) (d : Bool) (e : Byte) (p : Option Byte) (s : State) :
    storeBytes (s.withUnread d e p) base bytes = (storeBytes s base bytes).map (State.withUnread d e p) := by
  rw [storeBytes_eq, storeBytes_eq]
  split <;> rfl

/-- What follows a check whose answer is the same. -/
theorem map_eq_map_map {α : Type} {r : Except Fault α} {g g' : α → State} {f : State → State}
    (hg : ∀ a, g' a = f (g a)) : r.map g' = (r.map g).map f := by
  cases r with
  | error _ => rfl
  | ok a => exact congrArg _ (hg a)

/-- What follows a check whose answer is the state it was given, updated. -/
theorem map_eq_map_map_of_eq_map {r r' : Except Fault State} {g g' f f' : State → State} (hr : r' = r.map f)
    (hg : ∀ a, g' (f a) = f' (g a)) : r'.map g' = (r.map g).map f' := by
  subst hr
  cases r with
  | error _ => rfl
  | ok a => exact congrArg _ (hg a)

theorem execLdVxK_unread {x : RegIdx} {s t : State} (h : execLdVxK x s = .next t) : Unread (execLdVxK x) s t := by
  cases hk : highestKey s with
  | none =>
    rw [execLdVxK_of_none hk] at h
    cases h
    exact .of_kept fun d e p => execLdVxK_of_none (s := s.withUnread d e p) hk
  | some j =>
    rw [execLdVxK_of_some hk] at h
    cases h
    exact .of_kept fun d e p => execLdVxK_of_some (s := s.withUnread d e p) hk

/-- A fatal entry depends on none of the three, so an instruction that can raise a condition does not where its result
does not. -/
theorem Unread.of_commit {w : Word} {s t : State} {r : State → Except Fault State} (dirtyWritten : Option Bool)
    (hr : ∀ d e p, r (s.withUnread d e p) = (r s).map (State.withUnread (dirtyWritten.getD d) e p))
    (h : commit w s (r s) = .next t) : Unread (fun s => commit w s (r s)) s t := by
  obtain ht | ⟨f, ht, rfl⟩ := commit_eq_next h
  · refine ⟨dirtyWritten, none, fun d e p => ?_⟩
    simp only [hr, ht]
    rfl
  · refine .of_kept fun d e p => ?_
    simp only [hr, ht]
    rfl

/-- By instruction: CLS and DRW write dirty, Fx18 writes ST, and none reads either or, RND aside, the rand port. -/
theorem exec_unread {i : Instr} {s t : State} (hi : ∀ x kk, i ≠ .rnd x kk) (h : exec i s = .next t) :
    Unread (exec i) s t := by
  cases i with
  | rnd x kk => exact absurd rfl (hi x kk)
  | cls => cases h; exact ⟨some true, none, fun _ _ _ => rfl⟩
  | drw x y n => exact .of_commit (some true) (fun _ _ _ => map_eq_map_map fun _ => rfl) h
  | ldStVx x => cases h; exact ⟨none, some (s.getV x), fun _ _ _ => rfl⟩
  | seImm | sneImm | seReg | sneReg =>
    cases h
    exact .of_kept fun d e p => congrArg _ (skipIf_withUnread d e p _ s)
  | skp | sknp => exact .of_commit none (fun d e p => map_eq_map_map fun _ => skipIf_withUnread d e p _ s) h
  | ret => exact .of_commit none (fun d e p => map_eq_map_map_of_eq_map (popCall_withUnread d e p s) fun _ => rfl) h
  | call nnn =>
    exact .of_commit none (fun d e p => map_eq_map_map_of_eq_map (pushCall_withUnread s.pc d e p s) fun _ => rfl) h
  | ldB | ldMemVx =>
    exact .of_commit none (fun d e p => map_eq_map_map_of_eq_map (storeBytes_withUnread _ _ d e p s) fun _ => rfl) h
  | ldVxMem x => exact .of_commit none (fun _ _ _ => map_eq_map_map fun _ => rfl) h
  | ldVxK x => exact execLdVxK_unread h
  | addI x => cases h; exact .of_kept fun d e p => congrArg _ (addIWith_withUnread _ x d e p s)
  | _ => cases h; exact .of_kept fun _ _ _ => rfl

/-- Every step but one of RND is blind to the three. -/
theorem step_unread {s t : State} (hi : ∀ x kk, stepInstr s ≠ some (.rnd x kk)) (h : step s = .next t) :
    Unread step s t := by
  cases step_effect h with
  | absorbed hh => exact .of_kept fun d e p => step_of_halted (s := s.withUnread d e p) hh
  | fetchFails hh f hf => exact .of_kept fun d e p => step_of_fetch_error (s := s.withUnread d e p) hh hf
  | illegal hs e' hd =>
    exact .of_kept fun d e p =>
      step_of_decode_error (s := s.withUnread d e p) hs.running (fetchWord_of_fetchable hs.fetchable) hd
  | executes hs i _ hd ht =>
    have hstep : stepInstr s = some i := stepInstr_of_runs hs hd
    obtain ⟨dirtyWritten, soundWritten, hx⟩ := exec_unread (fun x kk hrnd => hi x kk (hrnd ▸ hstep)) ht
    exact ⟨dirtyWritten, soundWritten, fun d e p =>
      (step_of_stepInstr (s := s.withUnread d e p) hstep).trans (hx d e p)⟩

/-- What leaves the rand port unread leaves it as it is. -/
theorem Unread.randPort_eq {run : State → Host.Outcome State Fault Refusal} {s t : State} (hu : Unread run s t)
    (h : run s = .next t) : t.randPort = s.randPort := by
  obtain ⟨dirtyWritten, soundWritten, hx⟩ := hu
  have ht := Host.Outcome.next.inj (h.symm.trans (hx s.dirty s.st s.randPort))
  exact (congrArg State.randPort ht).trans rfl

theorem afterDraw_withUnread (d : Bool) (e : Byte) (s : State) :
    afterDraw (s.withUnread d e s.randPort) = (afterDraw s).withUnread d e (afterDraw s).randPort := by
  obtain hp | ⟨b, hp⟩ := s.randPort.eq_none_or_eq_some
  · rw [afterDraw_of_none (s := s.withUnread d e s.randPort) hp, afterDraw_of_none hp]
    rfl
  · rw [afterDraw_of_some (s := s.withUnread d e s.randPort) hp, afterDraw_of_some hp]
    rfl

/-- RND reads the rand port, and neither dirty nor ST. -/
theorem step_withUnread_of_rnd {s t : State} {x : RegIdx} {kk : Byte} (hi : stepInstr s = some (.rnd x kk))
    (h : step s = .next t) (d : Bool) (e : Byte) :
    step (s.withUnread d e s.randPort) = .next (t.withUnread d e t.randPort) := by
  rw [step_of_stepInstr hi, exec_rnd] at h
  cases h
  rw [step_of_stepInstr (s := s.withUnread d e s.randPort) hi, exec_rnd, afterDraw_withUnread]
  rfl

/-- Settles O59: RND by itself, every other step with its rand port as it is. -/
theorem stepsDoNotReadSoundOrDirty : Obligations.StepsDoNotReadSoundOrDirty := by
  intro s t h
  by_cases hi : ∃ x kk, stepInstr s = some (.rnd x kk)
  · obtain ⟨x, kk, hi⟩ := hi
    exact ⟨none, none, step_withUnread_of_rnd hi h⟩
  · have hu : Unread step s t := step_unread (fun x kk hx => hi ⟨x, kk, hx⟩) h
    have hport := hu.randPort_eq h
    obtain ⟨dirtyWritten, soundWritten, hx⟩ := hu
    refine ⟨dirtyWritten, soundWritten, fun d e => (hx d e s.randPort).trans ?_⟩
    rw [← hport]
    rfl

/-! ## The step transaction (spec/60_exceptions.md R227) -/

theorem apply_step_of_step {h : Session} {b : Byte} {u : State} (hu : step (presentRand b h.machine) = .next u) :
    h.apply (.step b) = .next { machine := withdrawRand u, loading := false } := by
  simp [Session.apply, stepSupplied, hu]

/-- With a byte on the port, RND takes it. -/
theorem step_presentRand_of_rnd {s : State} {x : RegIdx} {kk : Byte} (hi : stepInstr s = some (.rnd x kk)) (b : Byte) :
    step (presentRand b s) = .next (writeReg x (b &&& kk) (withdrawRand s)) := by
  have hi' : stepInstr (presentRand b s) = some (.rnd x kk) := hi
  rw [step_of_stepInstr hi', exec_rnd, randByte_of_some (presentRand_randPort s b),
    afterDraw_of_some (presentRand_randPort s b)]
  rfl

/-- The byte of a step transaction that executes no RND makes no difference. -/
theorem apply_step_congr {h : Session} (hi : ∀ x kk, stepInstr h.machine ≠ some (.rnd x kk)) (b c : Byte) :
    h.apply (.step c) = h.apply (.step b) := by
  obtain ⟨t, ht⟩ := exists_step_eq_next h.machine
  obtain ⟨dirtyWritten, soundWritten, hx⟩ := step_unread hi ht
  rw [apply_step_of_step (b := b) (hx h.machine.dirty h.machine.st (some b)),
    apply_step_of_step (b := c) (hx h.machine.dirty h.machine.st (some c))]
  rfl

/-- Settles O60: every step has a next state, RND takes the byte, and any other step is blind to it. -/
theorem stepTransactionSamplesRandOnlyForRnd : Obligations.StepTransactionSamplesRandOnlyForRnd := by
  intro h b
  refine ⟨?_, fun x kk hi => ?_, fun hi c => apply_step_congr hi b c⟩
  · obtain ⟨t, ht⟩ := exists_step_eq_next (presentRand b h.machine)
    exact ⟨t, ht, apply_step_of_step ht⟩
  · exact ⟨_, apply_step_of_step (step_presentRand_of_rnd hi b), by simp, by simp, by simp⟩

end Sys2Proof.Machine
end

section
/-! SUPPORT and PROOFS of the memory family (spec/20_memory.md): the fetch, the transfers of Fx33, Fx55, Fx65 and Dxyn, and
the loads. A transfer either fits and ends in one state, said once as `afterStore` for both stores, or is fatal at its first
address out of range. -/

namespace Sys2Proof.Machine

/-! ## The words of families D and F (spec/30_encoding.md R74, R75) -/

/-- The word of format XYN as the number that its fields spell. -/
theorem ofNat_eq_wordXYN (f : Nibble) (x y : RegIdx) (n : Nibble) :
    BitVec.ofNat 16 (f.toNat * 0x1000 + 0x100 * x.val + 0x10 * y.val + n.toNat) = wordXYN f x y n := by
  have h : f.toNat * 0x1000 + 0x100 * x.val + 0x10 * y.val + n.toNat = (wordXYN f x y n).toNat := by
    rw [toNat_wordXYN]
    omega
  rw [h, BitVec.ofNat_toNat, BitVec.setWidth_eq]

/-- A word of family F with its fixed fields first, as the statements spell it. -/
theorem ofNat_eq_wordXKK_familyF (x : RegIdx) (kk : Byte) :
    BitVec.ofNat 16 (0xF000 + kk.toNat + 0x100 * x.val) = wordXKK 0xF x kk := by
  rw [Nat.add_right_comm]
  exact ofNat_eq_wordXKK 0xF x kk

theorem ofNat_eq_encode_ldB (x : RegIdx) : BitVec.ofNat 16 (0xF033 + 0x100 * x.val) = encode (.ldB x) :=
  ofNat_eq_wordXKK_familyF x 0x33

theorem ofNat_eq_encode_ldMemVx (x : RegIdx) : BitVec.ofNat 16 (0xF055 + 0x100 * x.val) = encode (.ldMemVx x) :=
  ofNat_eq_wordXKK_familyF x 0x55

theorem ofNat_eq_encode_ldVxMem (x : RegIdx) : BitVec.ofNat 16 (0xF065 + 0x100 * x.val) = encode (.ldVxMem x) :=
  ofNat_eq_wordXKK_familyF x 0x65

theorem decode_wordXKK_familyF (x : RegIdx) (kk : Byte) :
    decode (wordXKK 0xF x kk) = decodeFamilyF (wordXKK 0xF x kk) := by
  simp [decode]

theorem decodesTo_ldB (x : RegIdx) : DecodesTo (0xF033 + 0x100 * x.val) (.ldB x) := by
  rw [DecodesTo, ofNat_eq_encode_ldB, encode, decode_wordXKK_familyF]
  simp [decodeFamilyF]

theorem decodesTo_ldMemVx (x : RegIdx) : DecodesTo (0xF055 + 0x100 * x.val) (.ldMemVx x) := by
  rw [DecodesTo, ofNat_eq_encode_ldMemVx, encode, decode_wordXKK_familyF]
  simp [decodeFamilyF]

theorem decodesTo_ldVxMem (x : RegIdx) : DecodesTo (0xF065 + 0x100 * x.val) (.ldVxMem x) := by
  rw [DecodesTo, ofNat_eq_encode_ldVxMem, encode, decode_wordXKK_familyF]
  simp [decodeFamilyF]

/-! ## The step and its fetch (spec/30_encoding.md R71) -/

theorem step_of_runs {s : State} {i : Instr} (hr : Runs s) (hd : decode (wordAtPc s) = .ok i) : step s = exec i s :=
  step_of_stepInstr (stepInstr_of_runs hr hd)

/-- Settles O6: the fetch answers the word at PC, and the step adds nothing around exec (R71). -/
theorem stepRunsTheDecodedInstruction : Obligations.StepRunsTheDecodedInstruction := by
  intro s i
  exact step_of_runs

/-- The two addresses at which a fetch can leave memory: PC + 1 from 0xFFF, and PC itself from above it. -/
theorem ofNat_max_pc {pc : Word} (hpc : 0xFFE < pc.toNat) :
    BitVec.ofNat 16 (max pc.toNat 0x1000) = if pc = 0xFFF then 0x1000 else pc := by
  split
  next h => rw [h]; rfl
  next h =>
    have hge : 0x1000 ≤ pc.toNat := by bv_omega
    rw [max_eq_left hge, BitVec.ofNat_toNat, BitVec.setWidth_eq]

theorem step_of_not_fetchable {s : State} (hrun : s.fault.halted = false) (hpc : 0xFFE < s.pc.toNat) :
    step s = .next (haltedWith s .outOfBoundsAccess 0 (if s.pc = 0xFFF then 0x1000 else s.pc)) := by
  have hf : fetchWord s = .error (.outOfBoundsAccess (max s.pc.toNat 0x1000)) := by
    rw [fetchWord_eq, if_neg (not_le.2 hpc)]
  rw [step_of_fetch_error hrun hf, ← ofNat_max_pc hpc]
  rfl

/-- Settles O8: the step halts, so its reply is FATAL, and with no word fetched nothing is logged. -/
theorem fetchOutOfRangeIsFatal : Obligations.FetchOutOfRangeIsFatal := by
  intro s hrun hpc
  have hstep := step_of_not_fetchable hrun hpc
  exact ⟨hstep, stepReply_of_halts hstep hrun rfl, stepLog_of_not_fetchable hpc⟩

/-! ## A transfer that fits, and one that does not (spec/20_memory.md R55, R56) -/

/-- A transfer of n + 1 bytes from I lies in memory where its last address does. -/
theorem dataBase_add_succ_le {s : State} {n : Nat} : dataBase s + (n + 1) ≤ memSize ↔ s.i.toNat + n ≤ 0xFFF := by
  simp only [dataBase, memSize]
  omega

theorem lt_dataBase_add_succ {s : State} {n : Nat} : memSize < dataBase s + (n + 1) ↔ 0xFFF < s.i.toNat + n := by
  simp only [dataBase, memSize]
  omega

theorem loadBytes_of_le {s : State} {base n : Nat} (h : base + n ≤ memSize) :
    loadBytes s base n = .ok ((addresses base n).map (Memory.read s.mem)) := by
  rw [loadBytes_eq, if_pos (.inl h)]

theorem loadBytes_of_lt {s : State} {base n : Nat} (hn : n ≠ 0) (h : memSize < base + n) :
    loadBytes s base n = .error (.outOfBoundsAccess (max base memSize)) := by
  rw [loadBytes_eq, if_neg (not_or.2 ⟨not_le.2 h, hn⟩)]

theorem storeBytes_of_le {s : State} {base : Nat} {bytes : List Byte} (h : base + bytes.length ≤ memSize) :
    storeBytes s base bytes = .ok (s.setMem (Memory.writeAll s.mem base bytes)) := by
  rw [storeBytes_eq, if_pos (.inl h)]

theorem storeBytes_of_lt {s : State} {base : Nat} {bytes : List Byte} (hne : bytes.length ≠ 0)
    (h : memSize < base + bytes.length) : storeBytes s base bytes = .error (.outOfBoundsAccess (max base memSize)) := by
  rw [storeBytes_eq, if_neg (not_or.2 ⟨not_le.2 h, hne⟩)]

/-- An instruction whose transfer is out of range ends in its fatal entry, whatever it would have done with the answer. -/
theorem commit_outOfBounds {α : Type} {w : Word} {s : State} {a : Nat} {r : Except Fault α} (g : α → State)
    (hr : r = .error (.outOfBoundsAccess a)) :
    commit w s (r.map g) = .next (haltedWith s .outOfBoundsAccess w (BitVec.ofNat 16 a)) := by
  subst hr
  rfl

theorem commit_map_of_eq_ok {α : Type} {w : Word} {s : State} {a : α} {r : Except Fault α} (g : α → State)
    (hr : r = .ok a) : commit w s (r.map g) = .next (g a) := by
  subst hr
  rfl

/-! ## What the updates of a transfer leave unchanged -/

theorem frame_setMem {w : Writes} {s : State} {m : Memory} (hm : ∀ a, a ∉ w.bytes → Memory.read m a = s.byteAt a) :
    Frame w s (s.setMem m) where
  regs _ _ := rfl
  index _ := rfl
  stackPointer _ := rfl
  stackEntries _ := rfl
  delay _ := rfl
  sound _ := rfl
  pixels _ _ _ := rfl
  dirty _ := rfl
  keys := rfl
  bytes := hm
  fault := rfl
  port _ := rfl
  draws _ := rfl

theorem frame_advance (w : Writes) (s : State) : Frame w s s.advance where
  regs _ _ := rfl
  index _ := rfl
  stackPointer _ := rfl
  stackEntries _ := rfl
  delay _ := rfl
  sound _ := rfl
  pixels _ _ _ := rfl
  dirty _ := rfl
  keys := rfl
  bytes _ _ := rfl
  fault := rfl
  port _ := rfl
  draws _ := rfl

theorem frame_loadV {w : Writes} {bytes : List Byte} (hw : ∀ k : RegIdx, k.val < bytes.length → k ∈ w.regs)
    (s : State) : Frame w s (s.loadV bytes) where
  regs r hr := by
    have hout : bytes.length ≤ r.val := not_lt.1 fun hlt => hr (hw r hlt)
    rw [State.getV_loadV, List.getElem?_eq_none hout]
    rfl
  index _ := State.loadV_i s bytes
  stackPointer _ := State.loadV_sp s bytes
  stackEntries _ := State.loadV_stack s bytes
  delay _ := State.loadV_dt s bytes
  sound _ := State.loadV_st s bytes
  pixels _ c r := congrArg (Display.pixel · c r) (State.loadV_disp s bytes)
  dirty _ := State.loadV_dirty s bytes
  keys := State.loadV_key s bytes
  bytes a _ := congrArg (Memory.read · a) (State.loadV_mem s bytes)
  fault := State.loadV_fault s bytes
  port _ := State.loadV_randPort s bytes
  draws _ := State.loadV_randDraws s bytes

/-! ## The stores (spec/42_index_memory.md R154, R155) -/

/-- Where Fx33 and Fx55 end with the bytes they store: I is left as it is. -/
def afterStore (bytes : List Byte) (s : State) : State :=
  (s.setMem (Memory.writeAll s.mem (dataBase s) bytes)).advance

@[simp] theorem afterStore_pc (bytes : List Byte) (s : State) : (afterStore bytes s).pc = s.pc + 2 := rfl

section
variable {bytes : List Byte} {s : State} (hs : s.mem.wf = true) (hfit : dataBase s + bytes.length ≤ memSize)
include hs hfit

theorem byteAt_afterStore {k : Nat} {b : Byte} (hk : bytes[k]? = some b) :
    (afterStore bytes s).byteAt (dataBase s + k) = b := by
  have hread := Memory.read_writeAll bytes s.mem (dataBase s) (dataBase s + k) hs hfit
  rw [if_pos (Nat.le_add_right _ _), Nat.add_sub_cancel_left, hk] at hread
  exact hread

theorem byteAt_writeAll_of_not_mem {a : Nat} (ha : a ∉ addresses (dataBase s) bytes.length) :
    Memory.read (Memory.writeAll s.mem (dataBase s) bytes) a = s.byteAt a := by
  rw [Memory.read_writeAll bytes s.mem (dataBase s) a hs hfit]
  split
  next hle =>
    have hout : bytes.length ≤ a - dataBase s := by
      rw [mem_addresses] at ha
      omega
    rw [List.getElem?_eq_none hout]
    rfl
  next => rfl

theorem frame_afterStore : Frame { bytes := addresses (dataBase s) bytes.length } s (afterStore bytes s) :=
  (frame_setMem fun _ ha => byteAt_writeAll_of_not_mem hs hfit ha).trans (frame_advance _ _)

end

@[simp] theorem length_regsUpTo (s : State) (x : RegIdx) : (regsUpTo s x).length = x.val + 1 := by
  simp [regsUpTo]

theorem getElem?_regsUpTo {x k : RegIdx} (hk : k.val ≤ x.val) (s : State) :
    (regsUpTo s x)[k.val]? = some (s.getV k) := by
  have hlt : k.val < x.val + 1 := by omega
  simp [regsUpTo, hlt, State.getV]

/-- Fx33 stores its three digits; none of them reaches 2^8. -/
theorem exec_ldB_of_le {x : RegIdx} {s : State} (h : dataBase s + 3 ≤ memSize) :
    ∃ hundreds tens ones : Byte, exec (.ldB x) s = .next (afterStore [hundreds, tens, ones] s) ∧
      hundreds.toNat = (s.getV x).toNat / 100 ∧ tens.toNat = (s.getV x).toNat / 10 % 10 ∧
      ones.toNat = (s.getV x).toNat % 10 := by
  refine ⟨_, _, _, commit_map_of_eq_ok State.advance (storeBytes_of_le h), ?_, ?_, ?_⟩ <;>
    rw [BitVec.toNat_ofNat] <;> omega

theorem exec_ldB_of_lt {x : RegIdx} {s : State} (h : memSize < dataBase s + 3) :
    exec (.ldB x) s = .next (haltedWith s .outOfBoundsAccess (encode (.ldB x))
      (BitVec.ofNat 16 (max (dataBase s) memSize))) :=
  commit_outOfBounds State.advance (storeBytes_of_lt three_ne_zero h)

/-- I stays, since LDST_INCREMENTS_I is false (R8). -/
theorem exec_ldMemVx_of_le {x : RegIdx} {s : State} (h : dataBase s + (x.val + 1) ≤ memSize) :
    exec (.ldMemVx x) s = .next (afterStore (regsUpTo s x) s) :=
  commit_map_of_eq_ok _ (storeBytes_of_le (by rwa [length_regsUpTo]))

theorem exec_ldMemVx_of_lt {x : RegIdx} {s : State} (h : memSize < dataBase s + (x.val + 1)) :
    exec (.ldMemVx x) s = .next (haltedWith s .outOfBoundsAccess (encode (.ldMemVx x))
      (BitVec.ofNat 16 (max (dataBase s) memSize))) :=
  commit_outOfBounds _ (storeBytes_of_lt (by simp) (by rwa [length_regsUpTo]))

/-- Settles O27: the digits are read back from the store, which fits or is fatal. -/
theorem storeBcdDigits : Obligations.StoreBcdDigits := by
  intro x s hs
  refine ⟨decodesTo_ldB x, fun hle => ?_, fun hlt => ?_⟩
  · obtain ⟨hundreds, tens, ones, hexec, hh, ht, ho⟩ := exec_ldB_of_le (x := x) (dataBase_add_succ_le.2 hle)
    have hfit : dataBase s + [hundreds, tens, ones].length ≤ memSize := dataBase_add_succ_le.2 hle
    refine ⟨_, hexec, ?_, ?_, ?_, rfl, frame_afterStore hs hfit⟩
    · exact (congrArg _ (byteAt_afterStore hs hfit (k := 0) rfl)).trans hh
    · exact (congrArg _ (byteAt_afterStore hs hfit (k := 1) rfl)).trans ht
    · exact (congrArg _ (byteAt_afterStore hs hfit (k := 2) rfl)).trans ho
  · rw [ofNat_eq_encode_ldB]
    exact exec_ldB_of_lt (lt_dataBase_add_succ.2 hlt)

/-- Settles O28: byte k of the store is register k. -/
theorem storeRegisterBlock : Obligations.StoreRegisterBlock := by
  intro x s hs
  rw [ofNat_eq_encode_ldMemVx]
  refine ⟨decodesTo_ldMemVx x, fun hle => ?_, fun hlt => exec_ldMemVx_of_lt (lt_dataBase_add_succ.2 hlt)⟩
  have hfit : dataBase s + (regsUpTo s x).length ≤ memSize := length_regsUpTo s x ▸ dataBase_add_succ_le.2 hle
  exact ⟨_, exec_ldMemVx_of_le (dataBase_add_succ_le.2 hle),
    fun k hk => byteAt_afterStore hs hfit (getElem?_regsUpTo hk s), rfl, length_regsUpTo s x ▸ frame_afterStore hs hfit⟩

/-- Settles O56: a store is the one effect that reaches memory, and it leaves every byte outside its addresses. -/
theorem onlyTheStoresChangeMemory : Obligations.OnlyTheStoresChangeMemory := by
  intro i s t a hs h hne
  cases exec_effect h with
  | stores bytes hi hr =>
    have ha : a ∈ addresses (dataBase s) bytes.length := by
      by_contra ha
      exact hne (byteAt_writeAll_of_not_mem hs hr ha)
    obtain ⟨x, hi, rfl⟩ | ⟨x, hi, rfl⟩ := hi
    · exact .inl ⟨x, hi, ha⟩
    · exact .inr ⟨x, hi, length_regsUpTo s x ▸ ha⟩
  | skips p => simp [State.byteAt] at hne
  | _ => exact absurd rfl hne

/-! ## A word stored where the next step fetches (spec/20_memory.md R64) -/

/-- Bytes k and k + 1 of a store that stand at PC + 2 and PC + 3 are the word the next step fetches. -/
theorem step_of_store_at_next_word {i : Instr} {bytes : List Byte} {s : State} {k : Nat} {hi lo : Byte} (hrun : Runs s)
    (hs : s.mem.wf = true) (hd : decode (wordAtPc s) = .ok i) (hexec : exec i s = .next (afterStore bytes s))
    (hfit : dataBase s + bytes.length ≤ memSize) (hhi : bytes[k]? = some hi) (hlo : bytes[k + 1]? = some lo)
    (hat : dataBase s + k = s.pc.toNat + 2) :
    ∃ t, step s = .next t ∧ Runs t ∧ wordAtPc t = bigEndian hi lo := by
  obtain ⟨hk, -⟩ := List.getElem?_eq_some_iff.1 hlo
  have hmem : dataBase s + k + 1 < 0x1000 := by simp only [memSize] at hfit; omega
  have hpc : (afterStore bytes s).pc.toNat = dataBase s + k := by
    rw [afterStore_pc]
    bv_omega
  refine ⟨_, (step_of_runs hrun hd).trans hexec, ⟨hrun.running, by omega⟩, ?_⟩
  rw [wordAtPc, hpc, byteAt_afterStore hs hfit hhi, Nat.add_assoc, byteAt_afterStore hs hfit hlo]

/-- Settles O30: for Fx55 the two bytes are registers k and k + 1, for Fx33 two digits. -/
theorem storedWordIsFetchedNext : Obligations.StoredWordIsFetchedNext := by
  intro x s hrun hs
  constructor
  · intro hd hle k hk hat
    have hfit : dataBase s + (regsUpTo s x).length ≤ memSize := length_regsUpTo s x ▸ dataBase_add_succ_le.2 hle
    have hsucc : (k + 1).val = k.val + 1 := by omega
    have hlo : (regsUpTo s x)[k.val + 1]? = some (s.getV (k + 1)) := hsucc ▸ getElem?_regsUpTo (by omega) s
    exact step_of_store_at_next_word hrun hs hd (exec_ldMemVx_of_le (dataBase_add_succ_le.2 hle)) hfit
      (getElem?_regsUpTo hk.le s) hlo hat
  · intro hd hle
    have hfit : dataBase s + 3 ≤ memSize := dataBase_add_succ_le.2 hle
    obtain ⟨hundreds, tens, ones, hexec, hh, ht, ho⟩ := exec_ldB_of_le (x := x) hfit
    constructor
    · intro hat
      obtain ⟨t, hstep, hrun', hw⟩ := step_of_store_at_next_word (k := 0) hrun hs hd hexec hfit rfl rfl hat
      exact ⟨t, hstep, hrun', by rw [hw, toNat_bigEndian, hh, ht, Nat.mul_comm]⟩
    · intro hat
      obtain ⟨t, hstep, hrun', hw⟩ := step_of_store_at_next_word (k := 1) hrun hs hd hexec hfit rfl rfl hat
      exact ⟨t, hstep, hrun', by rw [hw, toNat_bigEndian, ht, ho, Nat.mul_comm]⟩

/-! ## The transfers from memory (spec/42_index_memory.md R156, spec/43_display_sprite.md R174) -/

/-- I stays, since LDST_INCREMENTS_I is false (R8). -/
theorem exec_ldVxMem_of_le {x : RegIdx} {s : State} (h : dataBase s + (x.val + 1) ≤ memSize) :
    exec (.ldVxMem x) s = .next (s.loadV ((addresses (dataBase s) (x.val + 1)).map s.byteAt)).advance :=
  commit_map_of_eq_ok _ (loadBytes_of_le h)

theorem exec_ldVxMem_of_lt {x : RegIdx} {s : State} (h : memSize < dataBase s + (x.val + 1)) :
    exec (.ldVxMem x) s = .next (haltedWith s .outOfBoundsAccess (encode (.ldVxMem x))
      (BitVec.ofNat 16 (max (dataBase s) memSize))) :=
  commit_outOfBounds _ (loadBytes_of_lt x.val.succ_ne_zero h)

/-- Settles O29: register k is byte k of the transfer, and a register above x lies beyond it. -/
theorem loadRegisterBlock : Obligations.LoadRegisterBlock := by
  intro x s
  refine ⟨decodesTo_ldVxMem x, fun hle => ?_, fun hlt => ?_⟩
  · refine ⟨_, exec_ldVxMem_of_le (dataBase_add_succ_le.2 hle), fun k hk => ?_, rfl,
      (frame_loadV (fun k hk => ?_) s).trans (frame_advance _ _)⟩
    · have hlt : k.val < x.val + 1 := by omega
      simp [addresses, hlt]
    · have hle : k ≤ x := by simpa [Nat.lt_succ_iff] using hk
      simp [hle]
  · rw [ofNat_eq_encode_ldVxMem]
    exact exec_ldVxMem_of_lt (lt_dataBase_add_succ.2 hlt)

theorem exec_drw_of_lt {x y : RegIdx} {n : Nibble} {s : State} (hn : n.toNat ≠ 0) (h : memSize < dataBase s + n.toNat) :
    exec (.drw x y n) s = .next (haltedWith s .outOfBoundsAccess (encode (.drw x y n))
      (BitVec.ofNat 16 (max (dataBase s) memSize))) :=
  commit_outOfBounds _ (loadBytes_of_lt hn h)

/-- Settles O33: the sprite bytes are checked before anything is drawn. -/
theorem drwOutOfRangeIsFatal : Obligations.DrwOutOfRangeIsFatal := by
  intro x y n s hn hlt
  have hw : BitVec.ofNat 16 (0xD000 + 0x100 * x.val + 0x10 * y.val + n.toNat) = encode (.drw x y n) :=
    ofNat_eq_wordXYN 0xD x y n
  rw [hw]
  exact exec_drw_of_lt (fun h => hn (BitVec.eq_of_toNat_eq h)) hlt

/-! ## The loads (spec/20_memory.md R67) -/

section
variable {h : Session}

theorem apply_loadRom_of_le {image : List Byte} (hopen : h.loading = true) (hl : image.length ≤ romMax) :
    h.apply (.loadRom image) = .next { h with machine := loadImage image h.machine } := by
  simp [Session.apply, hopen, hl]

theorem apply_loadRom_of_lt {image : List Byte} (hopen : h.loading = true) (hl : romMax < image.length) :
    h.apply (.loadRom image) = .refused .romTooLong := by
  simp [Session.apply, hopen, hl]

theorem apply_loadRom_of_closed (image : List Byte) (hclosed : h.loading = false) :
    h.apply (.loadRom image) = .refused .loadAfterFirstStep := by
  simp [Session.apply, hclosed]

theorem apply_load_of_lt {k : Nat} (b : Byte) (hopen : h.loading = true) (hk : k < romMax) :
    h.apply (.load k b) = .next { h with machine := loadByte k b h.machine } := by
  simp [Session.apply, hopen, hk]

theorem apply_load_of_le {k : Nat} (b : Byte) (hopen : h.loading = true) (hk : romMax ≤ k) :
    h.apply (.load k b) = .refused .romTooLong := by
  simp [Session.apply, hopen, hk]

theorem apply_load_of_closed (k : Nat) (b : Byte) (hclosed : h.loading = false) :
    h.apply (.load k b) = .refused .loadAfterFirstStep := by
  simp [Session.apply, hclosed]

end

/-- What each byte of memory reads as after a load of an image that fits. -/
theorem byteAt_loadImage {s : State} {image : List Byte} (hs : s.mem.wf = true) (hl : image.length ≤ romMax) (a : Nat) :
    (loadImage image s).byteAt a =
      if 0x200 ≤ a then (image[a - 0x200]?).getD (s.byteAt a) else s.byteAt a :=
  Memory.read_writeAll image s.mem progBase a hs (by simp only [romMax, progBase, memSize] at *; omega)

theorem byteAt_loadByte {s : State} (hs : s.mem.wf = true) (k : Nat) (b : Byte) (a : Nat) :
    (loadByte k b s).byteAt a = if 0x200 + k = a then b else s.byteAt a :=
  Memory.read_write s.mem 0 (progBase + k) b a hs

/-- Settles O43: a branch of the transaction per clause, then what memory reads as after its writes. -/
theorem romLoadIsVerbatimOrRefused : Obligations.RomLoadIsVerbatimOrRefused := by
  refine ⟨rfl, fun h => ⟨⟨_, rfl, rfl⟩, fun b h' hb => ?_, fun image => ⟨fun hopen hs hl => ?_, ?_, ?_⟩,
    fun k b => ⟨fun hopen hs hk => ?_, ?_, ?_⟩⟩⟩
  · obtain ⟨u, -, rfl⟩ := apply_step_eq_next hb
    rfl
  · refine ⟨_, apply_loadRom_of_le hopen hl, hopen, fun k hk => ?_, fun a ha => ?_, rfl⟩
    · simp [byteAt_loadImage hs hl, hk]
    · rw [byteAt_loadImage hs hl]
      split
      next hge =>
        have hout : image.length ≤ a - 0x200 := by omega
        rw [List.getElem?_eq_none hout]
        rfl
      next => rfl
  · exact apply_loadRom_of_lt
  · exact apply_loadRom_of_closed image
  · refine ⟨_, apply_load_of_lt b hopen hk, hopen, ?_, fun a ha => ?_, rfl⟩
    · rw [byteAt_loadByte hs, if_pos rfl]
    · rw [byteAt_loadByte hs, if_neg ha.symm]
  · exact apply_load_of_le b
  · exact apply_load_of_closed k b

/-- The byte loads of an image from offset k on write it there, one byte after the other (R58). -/
theorem run_byteLoads : ∀ (image : List Byte) (h : Session) (k : Nat), h.loading = true → k + image.length ≤ romMax →
    h.run ((image.zipIdx k).map fun e => .load e.2 e.1) =
      .next { h with machine := h.machine.setMem (Memory.writeAll h.machine.mem (progBase + k) image) }
  | [], _, _, _, _ => rfl
  | b :: image, h, k, hopen, hl => by
    rw [List.length_cons] at hl
    rw [List.zipIdx_cons, List.map_cons, Session.run, apply_load_of_lt b hopen (by omega)]
    exact run_byteLoads image _ (k + 1) hopen (by omega)

/-- Settles O44, by induction on the image with its offset. -/
theorem romLoadIsItsByteLoads : Obligations.RomLoadIsItsByteLoads := by
  intro h image hopen hl
  have hfit : 0 + image.length ≤ romMax := by rwa [Nat.zero_add]
  exact (run_byteLoads image h 0 hopen hfit).trans (apply_loadRom_of_le hopen hl).symm

end Sys2Proof.Machine
end

section
/-! SUPPORT and PROOFS of the encoding family (spec/30_encoding.md): decode and encode undo each other, the illegal
words, the opcode table, what a step replies and logs, and the shifts. What an illegal word is and which row a word
matches rest on its family and sub-opcode alone, so both are read off those two fields. -/

namespace Sys2Proof.Machine

/-! ## The decoder and the encoder (spec/30_encoding.md R74, R75) -/

theorem decode_of_family0 {w : Word} (hf : fieldF w = 0x0#4) : decode w = .ok (decodeFamily0 w) := by
  simp [decode, hf]

theorem decode_of_family8 {w : Word} (hf : fieldF w = 0x8#4) : decode w = decodeFamily8 w := by
  simp [decode, hf]

theorem decode_of_familyE {w : Word} (hf : fieldF w = 0xE#4) : decode w = decodeFamilyE w := by
  simp [decode, hf]

theorem decode_of_familyF {w : Word} (hf : fieldF w = 0xF#4) : decode w = decodeFamilyF w := by
  simp [decode, hf]

/-- A family-0 word that is neither 00E0 nor 00EE is SYS (R101). -/
theorem decodeFamily0_of_ne {w : Word} (hcls : w ≠ 0x00E0#16) (hret : w ≠ 0x00EE#16) :
    decodeFamily0 w = .sys (fieldNNN w) := by
  rw [decodeFamily0, if_neg hcls, if_neg hret]

/-- The decoder undoes the encoder: the family selects the arm, and the fields are read back. -/
theorem decode_encode {i : Instr} (h : i.wf = true) : decode (encode i) = .ok i := by
  cases i with
  | cls | ret => rfl
  | sys nnn =>
    obtain ⟨hcls, hret⟩ : nnn ≠ 0x0E0 ∧ nnn ≠ 0x0EE := by simpa [Instr.wf, sysOperandOk] using h
    have hnnn : fieldNNN (encode (.sys nnn)) = nnn := fieldNNN_wordNNN 0x0 nnn
    have hf : fieldF (encode (.sys nnn)) = 0x0 := fieldF_wordNNN 0x0 nnn
    rw [decode_of_family0 hf, decodeFamily0_of_ne, hnnn]
    · exact fun e => hcls (hnnn.symm.trans (congrArg fieldNNN e))
    · exact fun e => hret (hnnn.symm.trans (congrArg fieldNNN e))
  | jp | call | seImm | sneImm | seReg | ldImm | addImm | sneReg | ldI | jpV0 | rnd | drw => simp [encode, decode]
  | ldReg | orReg | andReg | xorReg | addReg | sub | shr | subn | shl =>
    simp [encode, decode_of_family8, decodeFamily8]
  | skp | sknp => simp [encode, decode_of_familyE, decodeFamilyE]
  | ldVxDt | ldVxK | ldDtVx | ldStVx | addI | ldF | ldB | ldMemVx | ldVxMem =>
    simp [encode, decode_of_familyF, decodeFamilyF]

/-- Settles O1, by the instructions, format by format. -/
theorem decodeOfEncodeIsTheInstruction : Obligations.DecodeOfEncodeIsTheInstruction :=
  fun _ h => decode_encode h

/-- SYS is decoded from neither word that R101 excludes: those are CLS and RET. -/
theorem wf_of_decode {w : Word} {i : Instr} (h : decode w = .ok i) : i.wf = true := by
  cases i with
  | sys nnn =>
    have hw : wordNNN 0x0 nnn = w := encode_of_decode h
    subst hw
    by_contra hbad
    obtain rfl | rfl : nnn = 0x0E0 ∨ nnn = 0x0EE := by
      simpa [Instr.wf, sysOperandOk, or_iff_not_imp_left] using hbad
    · have hcls : decode (wordNNN 0x0 0x0E0) = .ok .cls := rfl
      cases hcls.symm.trans h
    · have hret : decode (wordNNN 0x0 0x0EE) = .ok .ret := rfl
      cases hret.symm.trans h
  | _ => rfl

/-- Settles O2: the word by the families of R75, and well-formedness by what SYS is not decoded from. -/
theorem encodeOfDecodeIsTheWord : Obligations.EncodeOfDecodeIsTheWord :=
  fun _ _ h => ⟨encode_of_decode h, wf_of_decode h⟩

/-- Settles O5: the decoder evaluates on each word. -/
theorem sampleWordsDecode : Obligations.SampleWordsDecode :=
  ⟨rfl, rfl, rfl, rfl, rfl, rfl, rfl, rfl, rfl, rfl, rfl⟩

/-! ## The words that decode (spec/30_encoding.md R77) -/

/-- The sub-opcodes n of family 8. -/
def subOpcodes8 : List Nibble := [0x0, 0x1, 0x2, 0x3, 0x4, 0x5, 0x6, 0x7, 0xE]

/-- The sub-opcodes kk of family E. -/
def subOpcodesE : List Byte := [0x9E, 0xA1]

/-- The sub-opcodes kk of family F. -/
def subOpcodesF : List Byte := [0x07, 0x0A, 0x15, 0x18, 0x1E, 0x29, 0x33, 0x55, 0x65]

theorem div_eq_toNat_iff (w : Word) (f : Nibble) : w.toNat / 0x1000 = f.toNat ↔ fieldF w = f := by
  have hf : w.toNat / 0x1000 = (fieldF w).toNat := by
    rw [toNat_fieldF]
    omega
  rw [hf, BitVec.toNat_inj]

theorem mod_mem_map_toNat_iff (w : Word) (l : List Byte) : w.toNat % 0x100 ∈ l.map BitVec.toNat ↔ fieldKK w ∈ l := by
  rw [← toNat_fieldKK]
  simp [BitVec.toNat_inj]

/-- The n that R77 lists for family 8 are those that are no sub-opcode. -/
theorem not_mem_subOpcodes8 : ∀ n : Nibble, n.toNat ∈ [0x8, 0x9, 0xA, 0xB, 0xC, 0xD, 0xF] ↔ n ∉ subOpcodes8 := by
  decide

/-- R77 by the fields of a word. -/
theorem isIllegalWord_iff (w : Word) : isIllegalWord w = true ↔
    (fieldF w = 0x5 ∧ fieldN w ≠ 0) ∨ (fieldF w = 0x9 ∧ fieldN w ≠ 0) ∨ (fieldF w = 0x8 ∧ fieldN w ∉ subOpcodes8) ∨
    (fieldF w = 0xE ∧ fieldKK w ∉ subOpcodesE) ∨ (fieldF w = 0xF ∧ fieldKK w ∉ subOpcodesF) := by
  rw [← not_mem_subOpcodes8, ← mod_mem_map_toNat_iff, ← mod_mem_map_toNat_iff, toNat_fieldN, ne_eq,
    ← BitVec.toNat_inj (y := 0), toNat_fieldN]
  simp only [← div_eq_toNat_iff]
  simp [isIllegalWord, or_assoc, subOpcodesE, subOpcodesF]

/-- A decoder's answer where exactly the words with `illegal` are rejected. -/
def Rejects (illegal : Prop) (answer : Except DecodeError Instr) : Prop :=
  (illegal ∧ answer = .error .illegalOpcode) ∨ (¬ illegal ∧ ∃ i, answer = .ok i)

theorem rejects_decodeFamily8 (w : Word) : Rejects (fieldN w ∉ subOpcodes8) (decodeFamily8 w) := by
  unfold decodeFamily8
  split
  case h_10 => exact .inl ⟨by simp_all [subOpcodes8], rfl⟩
  all_goals exact .inr ⟨by simp [*, subOpcodes8], _, rfl⟩

theorem rejects_decodeFamilyE (w : Word) : Rejects (fieldKK w ∉ subOpcodesE) (decodeFamilyE w) := by
  unfold decodeFamilyE
  split
  case h_3 => exact .inl ⟨by simp_all [subOpcodesE], rfl⟩
  all_goals exact .inr ⟨by simp [*, subOpcodesE], _, rfl⟩

theorem rejects_decodeFamilyF (w : Word) : Rejects (fieldKK w ∉ subOpcodesF) (decodeFamilyF w) := by
  unfold decodeFamilyF
  split
  case h_10 => exact .inl ⟨by simp_all [subOpcodesF], rfl⟩
  all_goals exact .inr ⟨by simp [*, subOpcodesF], _, rfl⟩

/-- The decoder rejects the words of R77: by their sub-opcode, in the five families that have one. -/
theorem rejects_decode (w : Word) : Rejects (isIllegalWord w = true) (decode w) := by
  simp only [isIllegalWord_iff]
  unfold decode
  split
  case h_6 hf | h_10 hf =>
    split
    next hn => exact .inr ⟨by simp [hf, hn], _, rfl⟩
    next hn => exact .inl ⟨by simpa [hf] using hn, rfl⟩
  case h_9 hf => simpa [hf] using rejects_decodeFamily8 w
  case h_15 hf => simpa [hf] using rejects_decodeFamilyE w
  case h_16 =>
    have hf : fieldF w = 0xF#4 := by
      generalize fieldF w = f at *
      revert f
      decide
    simpa [hf] using rejects_decodeFamilyF w
  all_goals
    next hf => exact .inr ⟨by simp [hf], _, rfl⟩

theorem decode_of_isIllegalWord {w : Word} (h : isIllegalWord w = true) : decode w = .error .illegalOpcode := by
  obtain ⟨-, hd⟩ | ⟨hn, -⟩ := rejects_decode w
  · exact hd
  · exact absurd h hn

/-- Settles O3, by the decoder's answer on either side of R77. -/
theorem decodeRejectsExactlyTheIllegalWords : Obligations.DecodeRejectsExactlyTheIllegalWords := by
  intro w
  obtain ⟨h, hd⟩ | ⟨h, hd⟩ := rejects_decode w
  · exact ⟨fun _ => hd, fun hn => absurd h (by simp [hn])⟩
  · exact ⟨fun hi => absurd hi h, fun _ => hd⟩

/-! ## The opcode table (spec/30_encoding.md R76) -/

/-- A field that a mask keeps whole is read off the match. -/
theorem extractLsb'_eq_of_and_eq {w m p : Word} {start len : Nat} (h : w &&& m = p)
    (hm : m.extractLsb' start len = BitVec.allOnes len) : w.extractLsb' start len = p.extractLsb' start len := by
  rw [← h, BitVec.extractLsb'_and, hm, BitVec.and_allOnes]

/-- Every mask keeps the family, and the sub-opcode n or kk in the families that have one (R75). -/
theorem opcodeTable_masks : ∀ r ∈ opcodeTable, fieldF r.mask = BitVec.allOnes 4 ∧
    (fieldF r.pattern ∈ [0x5#4, 0x8#4, 0x9#4] → fieldN r.mask = BitVec.allOnes 4) ∧
    (fieldF r.pattern ∈ [0xE#4, 0xF#4] → fieldKK r.mask = BitVec.allOnes 8) := by
  decide

theorem opcodeTable_patterns_legal : ∀ r ∈ opcodeTable, isIllegalWord r.pattern = false := by decide

/-- Whether a word is illegal rests on its family and its sub-opcode alone. -/
theorem isIllegalWord_congr {w p : Word} (hF : fieldF w = fieldF p)
    (hN : fieldF p ∈ [0x5#4, 0x8#4, 0x9#4] → fieldN w = fieldN p)
    (hKK : fieldF p ∈ [0xE#4, 0xF#4] → fieldKK w = fieldKK p) : isIllegalWord w = isIllegalWord p := by
  rw [Bool.eq_iff_iff, isIllegalWord_iff, isIllegalWord_iff, hF]
  refine or_congr (and_congr_right fun hf => ?_) (or_congr (and_congr_right fun hf => ?_) (or_congr
    (and_congr_right fun hf => ?_) (or_congr (and_congr_right fun hf => ?_) (and_congr_right fun hf => ?_))))
  · rw [hN (by simp [hf])]
  · rw [hN (by simp [hf])]
  · rw [hN (by simp [hf])]
  · rw [hKK (by simp [hf])]
  · rw [hKK (by simp [hf])]

/-- A word that matches a row has the family and the sub-opcode of the row's match, which is no illegal word. -/
theorem isIllegalWord_of_row {w : Word} {r : OpcodeRow} (hr : r ∈ opcodeTable) (hw : w &&& r.mask = r.pattern) :
    isIllegalWord w = false := by
  obtain ⟨hF, hN, hKK⟩ := opcodeTable_masks r hr
  have hcongr : isIllegalWord w = isIllegalWord r.pattern :=
    isIllegalWord_congr (extractLsb'_eq_of_and_eq hw hF) (fun h => extractLsb'_eq_of_and_eq hw (hN h))
      (fun h => extractLsb'_eq_of_and_eq hw (hKK h))
  rw [hcongr]
  exact opcodeTable_patterns_legal r hr

/-- What two rows say of a word that both match agrees where both look. -/
theorem pattern_and_mask_eq {w : Word} {r q : OpcodeRow} (hr : w &&& r.mask = r.pattern)
    (hq : w &&& q.mask = q.pattern) : r.pattern &&& q.mask = q.pattern &&& r.mask := by
  rw [← hr, ← hq, BitVec.and_assoc, BitVec.and_assoc, BitVec.and_comm r.mask]

/-- Two rows that can share a word are one, or one of them has a single word. -/
theorem opcodeTable_rows_overlap : ∀ r ∈ opcodeTable, ∀ q ∈ opcodeTable,
    r.pattern &&& q.mask = q.pattern &&& r.mask → r.mask = 0xFFFF#16 ∨ q.mask = 0xFFFF#16 ∨ r = q := by
  decide

theorem opcodeTable_rows_whole : ∀ r ∈ opcodeTable, r.mask = 0xFFFF#16 → r.pattern = 0x00E0 ∨ r.pattern = 0x00EE := by
  decide

theorem eq_of_whole_row {w : Word} {r : OpcodeRow} (hr : r ∈ opcodeTable) (hw : w &&& r.mask = r.pattern)
    (hm : r.mask = 0xFFFF#16) : w = 0x00E0 ∨ w = 0x00EE := by
  have hall : w &&& 0xFFFF#16 = w := BitVec.and_allOnes
  rw [hm, hall] at hw
  exact hw ▸ opcodeTable_rows_whole r hr hm

/-- Two rows that a word matches are one, but for the words that SYS excludes. -/
theorem row_eq_of_and_mask {w : Word} {r q : OpcodeRow} (hr : r ∈ opcodeTable) (hq : q ∈ opcodeTable)
    (hwr : w &&& r.mask = r.pattern) (hwq : w &&& q.mask = q.pattern) : r = q ∨ w = 0x00E0 ∨ w = 0x00EE := by
  obtain hm | hm | h := opcodeTable_rows_overlap r hr q hq (pattern_and_mask_eq hwr hwq)
  · exact .inr (eq_of_whole_row hr hwr hm)
  · exact .inr (eq_of_whole_row hq hwq hm)
  · exact .inl h

/-- The mask of an instruction's row, by its format (R74): the bits that are no operand. -/
def formatMask : Instr → Word
  | .cls | .ret => 0xFFFF
  | .sys _ | .jp _ | .call _ | .seImm _ _ | .sneImm _ _ | .ldImm _ _ | .addImm _ _ | .ldI _ | .jpV0 _ | .rnd _ _
  | .drw _ _ _ => 0xF000
  | .seReg _ _ | .ldReg _ _ | .orReg _ _ | .andReg _ _ | .xorReg _ _ | .addReg _ _ | .sub _ _ | .shr _ _ | .subn _ _
  | .shl _ _ | .sneReg _ _ => 0xF00F
  | .skp _ | .sknp _ | .ldVxDt _ | .ldVxK _ | .ldDtVx _ | .ldStVx _ | .addI _ | .ldF _ | .ldB _ | .ldMemVx _
  | .ldVxMem _ => 0xF0FF

/-- The row of an instruction: its word without the operands is the match. -/
def rowOf (i : Instr) : OpcodeRow where
  mnemonic := i.mnemonic
  mask := formatMask i
  pattern := encode i &&& formatMask i

theorem wordNNN_and_mask (f : Nibble) (nnn : Addr12) : wordNNN f nnn &&& 0xF000 = wordNNN f 0 :=
  (mask_family _ f).2 (fieldF_wordNNN f nnn)

theorem wordXYN_and_mask (f : Nibble) (x y : RegIdx) (n : Nibble) : wordXYN f x y n &&& 0xF00F = wordXYN f 0 0 n :=
  (mask_family_n _ f n).2 ⟨fieldF_wordXYN f x y n, fieldN_wordXYN f x y n⟩

theorem wordXKK_and_mask (f : Nibble) (x : RegIdx) (kk : Byte) : wordXKK f x kk &&& 0xF0FF = wordXKK f 0 kk :=
  (mask_family_kk _ f kk).2 ⟨fieldF_wordXKK f x kk, fieldKK_wordXKK f x kk⟩

/-- By format: what the mask leaves of the word is a closed term. -/
theorem rowOf_mem (i : Instr) : rowOf i ∈ opcodeTable := by
  cases i with
  | cls | ret => decide
  | sys | jp | call | seImm | sneImm | ldImm | addImm | ldI | jpV0 | rnd | drw =>
    simp only [rowOf, formatMask, Instr.mnemonic, encode, wordXYN, wordXKK, wordNNN_and_mask]
    decide
  | seReg | ldReg | orReg | andReg | xorReg | addReg | sub | shr | subn | shl | sneReg =>
    simp only [rowOf, formatMask, Instr.mnemonic, encode, wordXYN_and_mask]
    decide
  | skp | sknp | ldVxDt | ldVxK | ldDtVx | ldStVx | addI | ldF | ldB | ldMemVx | ldVxMem =>
    simp only [rowOf, formatMask, Instr.mnemonic, encode, wordXKK_and_mask]
    decide

theorem opcodeRowOf_eq_none {w : Word} :
    opcodeRowOf w = none ↔ ∀ r ∈ opcodeTable, w &&& r.mask ≠ r.pattern := by
  simp [opcodeRowOf]

theorem opcodeRowOf_eq_some {w : Word} {r : OpcodeRow} (h : opcodeRowOf w = some r) :
    r ∈ opcodeTable ∧ w &&& r.mask = r.pattern :=
  ⟨List.mem_of_find?_eq_some h, by simpa using List.find?_some h⟩

/-- The first row of a decoded word is its instruction's: another row matches the words of CLS and RET alone. -/
theorem mnemonic_opcodeRowOf_of_decode {w : Word} {i : Instr} (h : decode w = .ok i) :
    (opcodeRowOf w).map OpcodeRow.mnemonic = some i.mnemonic := by
  have hmatch : w &&& (rowOf i).mask = (rowOf i).pattern := by
    rw [← encode_of_decode h]
    rfl
  cases hfind : opcodeRowOf w with
  | none => exact absurd hmatch (opcodeRowOf_eq_none.1 hfind _ (rowOf_mem i))
  | some r =>
    obtain ⟨hr, hwr⟩ := opcodeRowOf_eq_some hfind
    obtain rfl | hw := row_eq_of_and_mask hr (rowOf_mem i) hwr hmatch
    · rfl
    · obtain rfl | rfl := hw <;> cases h <;> cases hfind <;> rfl

/-- Settles O4: a decoded word has its instruction's row, and a word with a row is no illegal word, so it decodes. -/
theorem decodeAgreesWithOpcodeTable : Obligations.DecodeAgreesWithOpcodeTable := by
  refine ⟨fun _ _ => mnemonic_opcodeRowOf_of_decode, fun w h => opcodeRowOf_eq_none.2 fun r hr hw => ?_,
    fun _ _ _ => row_eq_of_and_mask⟩
  obtain ⟨i, hi⟩ := (decodeRejectsExactlyTheIllegalWords w).2 (isIllegalWord_of_row hr hw)
  cases hi.symm.trans h

/-! ## The reply of a step (spec/30_encoding.md R71) -/

theorem stepReply_eq {s t : State} (h : step s = .next t) : stepReply s =
    if s.fault.halted then .halted else if stepWaits s then .waiting
    else if t.fault.halted then .fatal else .executed := by
  simp [stepReply, h]

/-- A step waits exactly where it executes Fx0A and no key is pressed (R193). -/
theorem stepWaits_iff {s : State} : stepWaits s = true ↔
    (∃ x, stepInstr s = some (.ldVxK x)) ∧ ∀ k : Fin 16, s.key[k] = false := by
  rw [← highestKey_eq_none]
  unfold stepWaits stepInstr
  cases stepWord s with
  | none => simp
  | some w =>
    cases hd : decode w with
    | error e => simp [hd]
    | ok i => cases i <;> simp [hd]

theorem running_of_stepInstr {s : State} {i : Instr} (h : stepInstr s = some i) : s.fault.halted = false := by
  cases hh : s.fault.halted with
  | false => rfl
  | true => simp [stepInstr, stepWord, hh] at h

/-- A step writes the fault status only where it halts the machine (R213). -/
theorem step_fault_of_not_halted {s t : State} (h : step s = .next t) (ht : t.fault.halted = false) :
    t.fault = s.fault := by
  cases step_effect h with
  | absorbed | illegal => rfl
  | fetchFails => cases ht
  | executes _ i _ hd hexec =>
    obtain hsame | ⟨f, rfl⟩ := (exec_effect hexec).fault_eq
    · exact hsame
    · cases ht

/-- Settles O47, by the order in which the reply is chosen: halted, waiting, fatal, executed. -/
theorem replySaysWhatTheStepDid : Obligations.ReplySaysWhatTheStepDid := by
  intro s t h
  rw [stepReply_eq h, ← stepWaits_iff]
  cases hs : s.fault.halted with
  | true =>
    have hw : stepWaits s = false := by
      by_contra hw
      obtain ⟨⟨x, hi⟩, -⟩ := stepWaits_iff.1 (by simpa using hw)
      simp [running_of_stepInstr hi] at hs
    simp [hw]
  | false =>
    cases hw : stepWaits s with
    | true =>
      have hts : s = t := Host.Outcome.next.inj ((step_of_stepWaits hw).symm.trans h)
      subst hts
      simp [hs]
    | false =>
      cases ht : t.fault.halted with
      | true => simp
      | false => simpa using step_fault_of_not_halted h ht

/-! ## The logged no-op (spec/40_control_flow.md R101, R110) -/

/-- What SYS and an illegal word do in a step. -/
theorem step_loggedNoOp {s : State} (hr : Runs s) (hstep : step s = .next s.advance)
    (hlog : isLogged (wordAtPc s) = true) (hw : stepWaits s = false) :
    ∃ t, step s = .next t ∧ t.pc = s.pc + 2 ∧ Frame {} s t ∧
      stepLog s = some { pc := s.pc, word := wordAtPc s } ∧ stepReply s = .executed := by
  refine ⟨_, hstep, rfl, frame_advance _ s, ?_, ?_⟩
  · simp [stepLog, stepWord_of_runs hr, hlog]
  · simp [stepReply_eq hstep, hr.running, hw]

/-- Settles O7: the decoder rejects the word, so the step runs R110. -/
theorem illegalWordIsALoggedNoOp : Obligations.IllegalWordIsALoggedNoOp := by
  intro s hr hill
  have hd := decode_of_isIllegalWord hill
  exact step_loggedNoOp hr (step_of_decode_error hr.running (fetchWord_of_fetchable hr.fetchable) hd)
    (by simp [isLogged, hd]) (by simp [stepWaits, stepWord_of_runs hr, hd])

theorem decode_of_isSysWord {w : Word} (h : isSysWord w = true) : decode w = .ok (.sys (fieldNNN w)) := by
  obtain ⟨⟨hlt, hcls⟩, hret⟩ : (w.toNat < 0x1000 ∧ w ≠ 0x00E0) ∧ w ≠ 0x00EE := by simpa [isSysWord] using h
  have hf : fieldF w = 0x0#4 := by
    apply BitVec.eq_of_toNat_eq
    rw [toNat_fieldF, Nat.div_eq_of_lt hlt]
    rfl
  rw [decode_of_family0 hf, decodeFamily0_of_ne hcls hret]

/-- Settles O10: the word is SYS, whose meaning is the logged no-op. -/
theorem sysIsALoggedNoOp : Obligations.SysIsALoggedNoOp := by
  refine ⟨fun nnn s => ⟨s.advance, rfl, rfl, frame_advance _ s⟩, fun s hr hsys => ?_⟩
  have hd := decode_of_isSysWord hsys
  exact step_loggedNoOp hr (step_of_runs hr hd) (by simp [isLogged, hd])
    (by simp [stepWaits, stepWord_of_runs hr, hd])

/-! ## The shifts (spec/41_register_alu.md R130, R132) -/

section
variable (p : Params) (flag result : Byte → Byte → Byte) {x y : RegIdx} (s : State)

/-- The result of a row that writes VF first, with neither operand VF: the same under both timings. -/
theorem getV_flagThenResult (hx : x ≠ 15) (hy : y ≠ 15) :
    (flagThenResult p flag result x y s).getV x = result (s.getV x) (s.getV y) := by
  have hread (r : RegIdx) (hr : r ≠ 15) (b : Byte) : (operandState p s (s.setVF b)).getV r = s.getV r := by
    unfold operandState
    split
    · simp [Ne.symm hr]
    · rfl
  simp [flagThenResult, hread x hx, hread y hy]

theorem getV_vf_flagThenResult (hx : x ≠ 15) :
    (flagThenResult p flag result x y s).getV 15 = flag (s.getV x) (s.getV y) := by
  simp [flagThenResult, hx]

theorem frame_setV {w : Writes} (hx : x ∈ w.regs) (b : Byte) : Frame w s (s.setV x b) where
  regs r hr := by
    have hne : x ≠ r := fun h => hr (h ▸ hx)
    simp [hne]
  index _ := rfl
  stackPointer _ := rfl
  stackEntries _ := rfl
  delay _ := rfl
  sound _ := rfl
  pixels _ _ _ := rfl
  dirty _ := rfl
  keys := rfl
  bytes _ _ := rfl
  fault := rfl
  port _ := rfl
  draws _ := rfl

theorem frame_flagThenResult : Frame { regs := [x, 15] } s (flagThenResult p flag result x y s) :=
  (frame_setV s (x := RegIdx.vf) (by simp) _).trans (frame_writeReg (by simp) _ _)

end

theorem toNat_lowBitFlag (a : Byte) : (lowBitFlag a).toNat = a.toNat % 2 := by
  simp [lowBitFlag]

theorem toNat_highBitFlag (a : Byte) : (highBitFlag a).toNat = a.toNat / 128 := by
  have hlt : a.toNat / 128 < 2 := by omega
  simp [highBitFlag, Nat.shiftRight_eq_div_pow, Nat.mod_eq_of_lt hlt]

theorem toNat_shiftRight_one (a : Byte) : (a >>> 1).toNat = a.toNat / 2 := by
  simp [Nat.shiftRight_eq_div_pow]

theorem toNat_shiftLeft_one (a : Byte) : (a <<< 1).toNat = 2 * a.toNat % 256 := by
  simp [Nat.shiftLeft_eq, Nat.mul_comm]

/-- A word of family 8 with its fixed fields first, as the statements spell it. -/
theorem ofNat_eq_wordXYN_family8 (x y : RegIdx) (n : Nibble) :
    BitVec.ofNat 16 (0x8000 + n.toNat + 0x100 * x.val + 0x10 * y.val) = wordXYN 0x8 x y n := by
  rw [Nat.add_right_comm 0x8000, Nat.add_right_comm (0x8000 + 0x100 * x.val)]
  exact ofNat_eq_wordXYN 0x8 x y n

theorem decodesTo_of_eq_encode {k : Nat} {i : Instr} (hk : BitVec.ofNat 16 k = encode i) (hi : i.wf = true) :
    DecodesTo k i := by
  rw [DecodesTo, hk, decode_encode hi]

theorem decodesTo_shr (x y : RegIdx) : DecodesTo (0x8006 + 0x100 * x.val + 0x10 * y.val) (.shr x y) :=
  decodesTo_of_eq_encode (ofNat_eq_wordXYN_family8 x y 0x6) rfl

theorem decodesTo_shl (x y : RegIdx) : DecodesTo (0x800E + 0x100 * x.val + 0x10 * y.val) (.shl x y) :=
  decodesTo_of_eq_encode (ofNat_eq_wordXYN_family8 x y 0xE) rfl

/-- Settles O22: both are rows that write VF first, with V[x] as both operands and y unread. -/
theorem shiftsSetTheBitShiftedOut : Obligations.ShiftsSetTheBitShiftedOut := by
  intro x y s
  refine ⟨decodesTo_shr x y, decodesTo_shl x y, fun hx => ⟨⟨_, rfl, ?_, ?_, rfl, frame_flagThenResult _ _ _ s⟩,
    ⟨_, rfl, ?_, ?_, rfl, frame_flagThenResult _ _ _ s⟩⟩⟩
  · exact (congrArg _ (getV_flagThenResult _ _ _ s hx hx)).trans (toNat_shiftRight_one _)
  · exact (congrArg _ (getV_vf_flagThenResult _ _ _ s hx)).trans (toNat_lowBitFlag _)
  · exact (congrArg _ (getV_flagThenResult _ _ _ s hx hx)).trans (toNat_shiftLeft_one _)
  · exact (congrArg _ (getV_vf_flagThenResult _ _ _ s hx)).trans (toNat_highBitFlag _)

end Sys2Proof.Machine
end

section
/-! SUPPORT and PROOFS of the control-flow family (spec/40_control_flow.md): where each instruction takes PC and the call
stack, and which steps emit the IllegalOpcode event. RET and CALL end in one state each, `afterRet` and `afterCall`, or in
their fatal entry. -/

namespace Sys2Proof.Machine

/-! ## The words of formats NNN and XY0 (spec/30_encoding.md R74) -/

/-- The word of format NNN as the number that its fields spell. -/
theorem ofNat_eq_wordNNN (f : Nibble) (nnn : Addr12) :
    BitVec.ofNat 16 (f.toNat * 0x1000 + nnn.toNat) = wordNNN f nnn := by
  rw [← toNat_wordNNN, BitVec.ofNat_toNat, BitVec.setWidth_eq]

theorem ofNat_eq_encode_call (nnn : Addr12) : BitVec.ofNat 16 (0x2000 + nnn.toNat) = encode (.call nnn) :=
  ofNat_eq_wordNNN 0x2 nnn

theorem decodesTo_jp (nnn : Addr12) : DecodesTo (0x1000 + nnn.toNat) (.jp nnn) :=
  decodesTo_of_eq_encode (ofNat_eq_wordNNN 0x1 nnn) rfl

theorem decodesTo_call (nnn : Addr12) : DecodesTo (0x2000 + nnn.toNat) (.call nnn) :=
  decodesTo_of_eq_encode (ofNat_eq_encode_call nnn) rfl

theorem decodesTo_jpV0 (nnn : Addr12) : DecodesTo (0xB000 + nnn.toNat) (.jpV0 nnn) :=
  decodesTo_of_eq_encode (ofNat_eq_wordNNN 0xB nnn) rfl

theorem decodesTo_seImm (x : RegIdx) (kk : Byte) : DecodesTo (0x3000 + 0x100 * x.val + kk.toNat) (.seImm x kk) :=
  decodesTo_of_eq_encode (ofNat_eq_wordXKK 0x3 x kk) rfl

theorem decodesTo_sneImm (x : RegIdx) (kk : Byte) : DecodesTo (0x4000 + 0x100 * x.val + kk.toNat) (.sneImm x kk) :=
  decodesTo_of_eq_encode (ofNat_eq_wordXKK 0x4 x kk) rfl

theorem decodesTo_seReg (x y : RegIdx) : DecodesTo (0x5000 + 0x100 * x.val + 0x10 * y.val) (.seReg x y) :=
  decodesTo_of_eq_encode (ofNat_eq_wordXYN 0x5 x y 0x0) rfl

theorem decodesTo_sneReg (x y : RegIdx) : DecodesTo (0x9000 + 0x100 * x.val + 0x10 * y.val) (.sneReg x y) :=
  decodesTo_of_eq_encode (ofNat_eq_wordXYN 0x9 x y 0x0) rfl

/-! ## Jumps (R103, R109) -/

theorem frame_setPc (w : Writes) (a : Word) (s : State) : Frame w s (s.setPc a) where
  regs _ _ := rfl
  index _ := rfl
  stackPointer _ := rfl
  stackEntries _ := rfl
  delay _ := rfl
  sound _ := rfl
  pixels _ _ _ := rfl
  dirty _ := rfl
  keys := rfl
  bytes _ _ := rfl
  fault := rfl
  port _ := rfl
  draws _ := rfl

/-- Settles O12: the target is the literal, zero-extended. -/
theorem jpGoesToItsTarget : Obligations.JpGoesToItsTarget := by
  intro nnn s
  exact ⟨decodesTo_jp nnn, _, rfl, toNat_literalAddr nnn, frame_setPc _ _ s⟩

/-- Settles O16: the sum fits the 16 bits of PC. -/
theorem jpV0AddsWithoutWrapping : Obligations.JpV0AddsWithoutWrapping := by
  intro nnn s
  exact ⟨decodesTo_jpV0 nnn, _, rfl, toNat_indexedTarget nnn _, frame_setPc _ _ s⟩

/-! ## Skips (R105-R108) -/

theorem frame_skipIf (w : Writes) (taken : Bool) (s : State) : Frame w s (s.skipIf taken) := by
  cases taken with
  | true => exact frame_setPc w _ s
  | false => exact frame_advance w s

/-- SE skips where its comparison holds. -/
theorem skipIf_decide_pc (c : Prop) [Decidable c] (s : State) :
    (s.skipIf (decide c)).pc = if c then s.pc + 4 else s.pc + 2 := by
  by_cases hc : c <;> simp [hc]

/-- SNE skips where its comparison fails. -/
theorem skipIf_decide_not_pc (c : Prop) [Decidable c] (s : State) :
    (s.skipIf (decide (¬ c))).pc = if c then s.pc + 2 else s.pc + 4 :=
  (skipIf_decide_pc (¬ c) s).trans (ite_not ..)

/-- Settles O14: both are skips on the one comparison. -/
theorem immediateSkipsCompareTheRegister : Obligations.ImmediateSkipsCompareTheRegister := by
  intro x kk s
  exact ⟨decodesTo_seImm x kk, decodesTo_sneImm x kk,
    ⟨_, rfl, skipIf_decide_pc _ s, frame_skipIf _ _ s⟩, ⟨_, rfl, skipIf_decide_not_pc _ s, frame_skipIf _ _ s⟩⟩

/-- Settles O15: both are skips on the one comparison. -/
theorem registerSkipsCompareTheRegisters : Obligations.RegisterSkipsCompareTheRegisters := by
  intro x y s
  exact ⟨decodesTo_seReg x y, decodesTo_sneReg x y,
    ⟨_, rfl, skipIf_decide_pc _ s, frame_skipIf _ _ s⟩, ⟨_, rfl, skipIf_decide_not_pc _ s, frame_skipIf _ _ s⟩⟩

/-! ## The call stack (R102, R104) -/

/-- From a state to one that differs in the call stack and PC alone, as RET and CALL leave it. -/
theorem frame_callStack (stack : Vector Word 16) (sp : Fin 17) (pc : Word) (s : State) :
    Frame { callStack := true } s { s with stack := stack, sp := sp, pc := pc } where
  regs _ _ := rfl
  index _ := rfl
  stackPointer h := nomatch h
  stackEntries h := nomatch h
  delay _ := rfl
  sound _ := rfl
  pixels _ _ _ := rfl
  dirty _ := rfl
  keys := rfl
  bytes _ _ := rfl
  fault := rfl
  port _ := rfl
  draws _ := rfl

/-- The state after a RET that pops entry k. -/
def afterRet (k : Fin 16) (s : State) : State := { s with sp := k.castSucc, pc := s.stack[k] + 2 }

@[simp] theorem afterRet_pc (k : Fin 16) (s : State) : (afterRet k s).pc = s.stack[k] + 2 := rfl

/-- The state after a CALL that pushes entry k. -/
def afterCall (nnn : Addr12) (k : Fin 16) (s : State) : State :=
  { s with stack := s.stack.set k s.pc, sp := k.succ, pc := literalAddr nnn }

theorem commit_map_of_eq_error {α : Type} {w : Word} {s : State} {f : Fault} {r : Except Fault α} (g : α → State)
    (hr : r = .error f) : commit w s (r.map g) = .next (fatalEntry w f s) := by
  subst hr
  rfl

theorem exec_ret_of_succ {s : State} {k : Fin 16} (hk : s.sp.val = k.val + 1) :
    exec .ret s = .next (afterRet k s) := by
  have hsp : s.sp = k.succ := Fin.ext hk
  have hpop : popCall s = .ok { s with sp := k.castSucc, pc := s.stack[k] } := by
    simp [popCall, hsp, Fin.castSucc, Fin.castAdd, Fin.castLE]
  exact commit_map_of_eq_ok State.advance hpop

theorem exec_ret_of_empty {s : State} (h : s.sp = 0) :
    exec .ret s = .next (haltedWith s .stackUnderflow 0x00EE 0) := by
  have hpop : popCall s = .error .stackUnderflow := by simp [popCall, h]
  exact commit_map_of_eq_error State.advance hpop

theorem exec_call_of_lt {s : State} {k : Fin 16} (nnn : Addr12) (hk : s.sp.val = k.val) :
    exec (.call nnn) s = .next (afterCall nnn k s) := by
  have hsp : s.sp = k.castSucc := Fin.ext hk
  have hpush : pushCall s s.pc = .ok { s with stack := s.stack.set k s.pc, sp := k.succ } := by
    simp [pushCall, hsp, Fin.succ]
  exact commit_map_of_eq_ok (State.setPc · (literalAddr nnn)) hpush

theorem exec_call_of_full {s : State} (nnn : Addr12) (h : s.sp.val = 16) :
    exec (.call nnn) s = .next (haltedWith s .stackOverflow (encode (.call nnn)) 0) := by
  have hpush : pushCall s s.pc = .error .stackOverflow := by simp [pushCall, h]
  exact commit_map_of_eq_error (State.setPc · (literalAddr nnn)) hpush

/-- Settles O11: the stack is empty, or entry k is popped. -/
theorem retPopsAndAddsTwo : Obligations.RetPopsAndAddsTwo :=
  ⟨decodesTo_of_eq_encode rfl rfl, fun s => ⟨exec_ret_of_empty,
    fun _ hk => ⟨_, exec_ret_of_succ hk, rfl, rfl, rfl, frame_callStack _ _ _ s⟩⟩⟩

@[simp] theorem stack_afterCall_same (nnn : Addr12) (k : Fin 16) (s : State) : (afterCall nnn k s).stack[k] = s.pc := by
  simp [afterCall]

theorem stack_afterCall_of_ne {k j : Fin 16} (hj : j ≠ k) (nnn : Addr12) (s : State) :
    (afterCall nnn k s).stack[j] = s.stack[j] := by
  have hne : k.val ≠ j.val := fun h => hj (Fin.ext h.symm)
  simp [afterCall, hne]

/-- Settles O13: the stack is full, or entry k is pushed. -/
theorem callPushesItsOwnAddress : Obligations.CallPushesItsOwnAddress := by
  intro nnn s
  refine ⟨decodesTo_call nnn, fun hfull => ?_, fun k hk => ⟨_, exec_call_of_lt nnn hk, stack_afterCall_same nnn k s,
    fun j hj => stack_afterCall_of_ne hj nnn s, rfl, toNat_literalAddr nnn, frame_callStack _ _ _ s⟩⟩
  rw [ofNat_eq_encode_call]
  exact exec_call_of_full nnn hfull

/-- Settles O17: RET pops the entry that CALL pushed, the one below the SP that CALL left. -/
theorem retUndoesCall : Obligations.RetUndoesCall := by
  intro nnn s hsp
  obtain ⟨k, hk⟩ : ∃ k : Fin 16, s.sp.val = k.val := ⟨⟨s.sp.val, hsp⟩, rfl⟩
  refine ⟨_, exec_call_of_lt nnn hk, fun u husp hustack => ⟨_, exec_ret_of_succ (congrArg Fin.val husp), ?_, ?_⟩⟩
  · rw [afterRet_pc, hustack, stack_afterCall_same]
  · exact Fin.ext hk.symm

/-! ## The IllegalOpcode event (R101, R110, spec/60_exceptions.md R217) -/

/-- The word of a well-formed SYS is one that R101 gives it. -/
theorem isSysWord_wordNNN {nnn : Addr12} (h : sysOperandOk nnn = true) : isSysWord (wordNNN 0x0 nnn) = true := by
  obtain ⟨hcls, hret⟩ : nnn ≠ 0x0E0 ∧ nnn ≠ 0x0EE := by simpa [sysOperandOk] using h
  have hlt : (wordNNN 0x0#4 nnn).toNat < 0x1000 := by simpa [toNat_wordNNN] using nnn.isLt
  have hne {w : Word} (hw : nnn ≠ fieldNNN w) : wordNNN 0x0#4 nnn ≠ w := by
    rintro rfl
    exact hw (fieldNNN_wordNNN _ nnn).symm
  have hcls' : wordNNN 0x0#4 nnn ≠ 0x00E0#16 := hne hcls
  have hret' : wordNNN 0x0#4 nnn ≠ 0x00EE#16 := hne hret
  simp [isSysWord, hlt, hcls', hret']

theorem isSysWord_of_decode {w : Word} {nnn : Addr12} (hd : decode w = .ok (.sys nnn)) : isSysWord w = true := by
  rw [← encode_of_decode hd]
  exact isSysWord_wordNNN (wf_of_decode hd)

theorem isIllegalWord_of_decode_error {w : Word} {e : DecodeError} (hd : decode w = .error e) :
    isIllegalWord w = true := by
  obtain ⟨hill, -⟩ | ⟨-, i, hi⟩ := rejects_decode w
  · exact hill
  · cases hd.symm.trans hi

/-- The words that emit the event are those of R101 and of R77. -/
theorem isLogged_iff {w : Word} : isLogged w = true ↔ isSysWord w = true ∨ isIllegalWord w = true := by
  constructor
  · intro hlog
    cases hd : decode w with
    | error e => exact .inr (isIllegalWord_of_decode_error hd)
    | ok i =>
      by_cases hsys : ∃ nnn, i = .sys nnn
      · obtain ⟨nnn, rfl⟩ := hsys
        exact .inl (isSysWord_of_decode hd)
      · rw [isLogged_of_decode hd (not_exists.1 hsys)] at hlog
        cases hlog
  · rintro (hsys | hill)
    · simp [isLogged, decode_of_isSysWord hsys]
    · simp [isLogged, decode_of_isIllegalWord hill]

theorem stepLog_of_runs {s : State} (hr : Runs s) : stepLog s =
    if isLogged (wordAtPc s) then some { pc := s.pc, word := wordAtPc s } else none := by
  simp [stepLog, stepWord_of_runs hr]

/-- A step that executes no word logs nothing: the machine is halted, or PC is out of range. -/
theorem stepLog_of_not_runs {s : State} (h : ¬ Runs s) : stepLog s = none := by
  by_cases hpc : s.pc.toNat ≤ 0xFFE
  · have hhalt : s.fault.halted = true := by
      by_contra hrun
      exact h ⟨by simpa using hrun, hpc⟩
    simp [stepLog, stepWord, hhalt]
  · exact stepLog_of_not_fetchable (not_le.1 hpc)

/-- Settles O48: a step that fetches logs by its word, and no other step logs. -/
theorem logEventsAreSysAndIllegalWords : Obligations.LogEventsAreSysAndIllegalWords := by
  intro s e
  by_cases hr : Runs s
  · rw [stepLog_of_runs hr, ← isLogged_iff]
    cases isLogged (wordAtPc s) <;> simp [hr, eq_comm]
  · simp [stepLog_of_not_runs hr, hr]

end Sys2Proof.Machine
end

section
/-! SUPPORT and PROOFS of the register ALU family (spec/41_register_alu.md): the rows that only write their destination,
and the rows that write VF first, whose result reads VF before or after that write. -/

namespace Sys2Proof.Machine

/-! ## The words of families 6, 7 and 8 (spec/30_encoding.md R74) -/

theorem decodesTo_ldImm (x : RegIdx) (kk : Byte) : DecodesTo (0x6000 + 0x100 * x.val + kk.toNat) (.ldImm x kk) :=
  decodesTo_of_eq_encode (ofNat_eq_wordXKK 0x6 x kk) rfl

theorem decodesTo_addImm (x : RegIdx) (kk : Byte) : DecodesTo (0x7000 + 0x100 * x.val + kk.toNat) (.addImm x kk) :=
  decodesTo_of_eq_encode (ofNat_eq_wordXKK 0x7 x kk) rfl

theorem decodesTo_ldReg (x y : RegIdx) : DecodesTo (0x8000 + 0x100 * x.val + 0x10 * y.val) (.ldReg x y) :=
  decodesTo_of_eq_encode (ofNat_eq_wordXYN_family8 x y 0x0) rfl

theorem decodesTo_orReg (x y : RegIdx) : DecodesTo (0x8001 + 0x100 * x.val + 0x10 * y.val) (.orReg x y) :=
  decodesTo_of_eq_encode (ofNat_eq_wordXYN_family8 x y 0x1) rfl

theorem decodesTo_andReg (x y : RegIdx) : DecodesTo (0x8002 + 0x100 * x.val + 0x10 * y.val) (.andReg x y) :=
  decodesTo_of_eq_encode (ofNat_eq_wordXYN_family8 x y 0x2) rfl

theorem decodesTo_xorReg (x y : RegIdx) : DecodesTo (0x8003 + 0x100 * x.val + 0x10 * y.val) (.xorReg x y) :=
  decodesTo_of_eq_encode (ofNat_eq_wordXYN_family8 x y 0x3) rfl

theorem decodesTo_addReg (x y : RegIdx) : DecodesTo (0x8004 + 0x100 * x.val + 0x10 * y.val) (.addReg x y) :=
  decodesTo_of_eq_encode (ofNat_eq_wordXYN_family8 x y 0x4) rfl

theorem decodesTo_sub (x y : RegIdx) : DecodesTo (0x8005 + 0x100 * x.val + 0x10 * y.val) (.sub x y) :=
  decodesTo_of_eq_encode (ofNat_eq_wordXYN_family8 x y 0x5) rfl

theorem decodesTo_subn (x y : RegIdx) : DecodesTo (0x8007 + 0x100 * x.val + 0x10 * y.val) (.subn x y) :=
  decodesTo_of_eq_encode (ofNat_eq_wordXYN_family8 x y 0x7) rfl

/-! ## Flags and the difference (R120, R128, R129, R131) -/

theorem flagOf_decide (c : Prop) [Decidable c] : flagOf (decide c) = if c then 1 else 0 := by
  simp [flagOf]

theorem toNat_greaterFlag (a b : Byte) : (greaterFlag a b).toNat = if a.toNat > b.toNat then 1 else 0 := by
  rw [greaterFlag, flagOf_decide]
  split <;> rfl

/-- The difference modulo 256, from the exact one shifted up so that it is not below 0. -/
theorem toNat_byte_sub (a b : Byte) : (a - b).toNat = (256 + a.toNat - b.toNat) % 256 := by
  rw [BitVec.toNat_sub]
  omega

/-! ## The rows that only write their destination (R122-R127) -/

theorem frame_writeReg_self (x : RegIdx) (b : Byte) (s : State) : Frame { regs := [x] } s (writeReg x b s) :=
  frame_writeReg (List.mem_singleton_self x) b s

theorem exec_ldImm (x : RegIdx) (kk : Byte) (s : State) : exec (.ldImm x kk) s = .next (writeReg x kk s) := rfl

theorem exec_addImm (x : RegIdx) (kk : Byte) (s : State) :
    exec (.addImm x kk) s = .next (writeReg x (s.getV x + kk) s) := rfl

/-- Settles O18: V[x] holds the written byte, and a byte's sum is modulo 256. -/
theorem loadAndAddImmediate : Obligations.LoadAndAddImmediate := by
  intro x kk s
  refine ⟨decodesTo_ldImm x kk, decodesTo_addImm x kk,
    ⟨_, exec_ldImm x kk s, getV_writeReg_same x _ s, rfl, frame_writeReg_self x _ s⟩,
    ⟨_, exec_addImm x kk s, ?_, rfl, frame_writeReg_self x _ s⟩⟩
  rw [getV_writeReg_same, BitVec.toNat_add]

theorem exec_ldReg (x y : RegIdx) (s : State) : exec (.ldReg x y) s = .next (writeReg x (s.getV y) s) := rfl

theorem exec_orReg (x y : RegIdx) (s : State) :
    exec (.orReg x y) s = .next (writeReg x (s.getV x ||| s.getV y) s) := rfl

theorem exec_andReg (x y : RegIdx) (s : State) :
    exec (.andReg x y) s = .next (writeReg x (s.getV x &&& s.getV y) s) := rfl

theorem exec_xorReg (x y : RegIdx) (s : State) :
    exec (.xorReg x y) s = .next (writeReg x (s.getV x ^^^ s.getV y) s) := rfl

/-- Settles O19: V[x] holds the written byte, read bit by bit. -/
theorem moveAndLogicRegisters : Obligations.MoveAndLogicRegisters := by
  intro x y s
  refine ⟨decodesTo_ldReg x y, decodesTo_orReg x y, decodesTo_andReg x y, decodesTo_xorReg x y,
    ⟨_, exec_ldReg x y s, getV_writeReg_same x _ s, rfl, frame_writeReg_self x _ s⟩,
    ⟨_, exec_orReg x y s, fun k => ?_, rfl, frame_writeReg_self x _ s⟩,
    ⟨_, exec_andReg x y s, fun k => ?_, rfl, frame_writeReg_self x _ s⟩,
    ⟨_, exec_xorReg x y s, fun k => ?_, rfl, frame_writeReg_self x _ s⟩⟩
  · rw [getV_writeReg_same, BitVec.getLsbD_or]
  · rw [getV_writeReg_same, BitVec.getLsbD_and]
  · rw [getV_writeReg_same, BitVec.getLsbD_xor]

/-! ## The rows that write VF first (R121, R128-R132) -/

section
variable {p : Params} (flag result : Byte → Byte → Byte) (x y : RegIdx) (s : State)

theorem getV_flagThenResult_of_latched (hp : p.vfTiming = .latched) :
    (flagThenResult p flag result x y s).getV x = result (s.getV x) (s.getV y) := by
  simp [flagThenResult, operandState, hp]

theorem getV_flagThenResult_of_sequential (hp : p.vfTiming = .sequential) :
    (flagThenResult p flag result x y s).getV x =
      result ((s.setVF (flag (s.getV x) (s.getV y))).getV x) ((s.setVF (flag (s.getV x) (s.getV y))).getV y) := by
  simp [flagThenResult, operandState, hp]

/-- With x = F the destination is VF too, so VF is all that is written. -/
theorem frame_flagThenResult_vf : Frame { regs := [15] } s (flagThenResult p flag result 15 y s) :=
  (frame_setV s (x := RegIdx.vf) (List.mem_singleton_self _) _).trans (frame_writeReg (List.mem_singleton_self _) _ _)

end

theorem exec_addReg (x y : RegIdx) (s : State) : exec (.addReg x y) s =
    .next (flagThenResult { Config.params with vfTiming := .latched } carryFlag (· + ·) x y s) := rfl

theorem exec_sub (x y : RegIdx) (s : State) :
    exec (.sub x y) s = .next (flagThenResult Config.params greaterFlag (· - ·) x y s) := rfl

theorem exec_subn (x y : RegIdx) (s : State) : exec (.subn x y) s =
    .next (flagThenResult Config.params (fun a b => greaterFlag b a) (fun a b => b - a) x y s) := rfl

theorem exec_shr (x y : RegIdx) (s : State) : exec (.shr x y) s =
    .next (flagThenResult Config.params (fun a _ => lowBitFlag a) (fun a _ => a >>> 1) x x s) := rfl

theorem exec_shl (x y : RegIdx) (s : State) : exec (.shl x y) s =
    .next (flagThenResult Config.params (fun a _ => highBitFlag a) (fun a _ => a <<< 1) x x s) := rfl

/-- Settles O20: ADD reads its operands before it writes VF, and writes the sum last. -/
theorem addRegistersSetsCarry : Obligations.AddRegistersSetsCarry := by
  intro x y s
  refine ⟨decodesTo_addReg x y, _, exec_addReg x y s, ?_, fun hx => ?_, rfl, frame_flagThenResult _ _ _ s⟩
  · rw [getV_flagThenResult_of_latched _ _ x y s rfl, BitVec.toNat_add]
  · rw [getV_vf_flagThenResult _ _ _ s hx, carryFlag, flagOf_decide]

/-- Settles O21: with neither operand VF, SUB and SUBN differ in which operand is the minuend alone. -/
theorem subtractSetsStrictGreater : Obligations.SubtractSetsStrictGreater := by
  intro x y s
  refine ⟨decodesTo_sub x y, decodesTo_subn x y, fun hx hy =>
    ⟨⟨_, exec_sub x y s, ?_, ?_, rfl, frame_flagThenResult _ _ _ s⟩,
     ⟨_, exec_subn x y s, ?_, ?_, rfl, frame_flagThenResult _ _ _ s⟩⟩⟩
  · rw [getV_flagThenResult _ _ _ s hx hy, toNat_byte_sub]
  · rw [getV_vf_flagThenResult _ _ _ s hx, greaterFlag, flagOf_decide]
  · rw [getV_flagThenResult _ _ _ s hx hy, toNat_byte_sub]
  · rw [getV_vf_flagThenResult _ _ _ s hx, greaterFlag, flagOf_decide]

/-! ## VF as an operand, under the timing this machine has (R134; spec decision D9) -/

theorem vfTiming_params : Config.params.vfTiming = .sequential := rfl

section
variable (flag result : Byte → Byte → Byte) {x y : RegIdx} (s : State)

/-- x = y = F: both operands are the new VF. -/
theorem getV_flagThenResult_vf_vf : (flagThenResult Config.params flag result 15 15 s).getV 15 =
    result (flag (s.getV 15) (s.getV 15)) (flag (s.getV 15) (s.getV 15)) := by
  simp [getV_flagThenResult_of_sequential _ _ _ _ s vfTiming_params]

/-- x = F: the first operand is the new VF. -/
theorem getV_flagThenResult_vf_left (hy : y ≠ 15) : (flagThenResult Config.params flag result 15 y s).getV 15 =
    result (flag (s.getV 15) (s.getV y)) (s.getV y) := by
  simp [getV_flagThenResult_of_sequential _ _ _ _ s vfTiming_params, hy.symm]

/-- y = F: the second operand is the new VF, which the row leaves in VF. -/
theorem getV_flagThenResult_vf_right (hx : x ≠ 15) : (flagThenResult Config.params flag result x 15 s).getV x =
    result (s.getV x) ((flagThenResult Config.params flag result x 15 s).getV 15) := by
  rw [getV_vf_flagThenResult _ _ _ s hx]
  simp [getV_flagThenResult_of_sequential _ _ _ _ s vfTiming_params, hx.symm]

end

/-- One bit shifted out to the right leaves nothing. -/
theorem lowBitFlag_shiftRight_one (a : Byte) : lowBitFlag a >>> 1 = 0 := by
  apply BitVec.eq_of_toNat_eq
  rw [toNat_shiftRight_one, toNat_lowBitFlag]
  exact Nat.div_eq_of_lt (Nat.mod_lt _ Nat.two_pos)

theorem toNat_highBitFlag_shiftLeft_one (a : Byte) : (highBitFlag a <<< 1).toNat = 2 * (a.toNat / 128) := by
  rw [toNat_shiftLeft_one, toNat_highBitFlag]
  omega

/-- Settles O23: the rows of R134 with x = F (SUB, SUBN, SHR, SHL), then those with y = F (SUB, SUBN). -/
theorem vfAsOperandReadsItsNewValue : Obligations.VfAsOperandReadsItsNewValue := by
  intro s
  refine ⟨fun y => ⟨_, exec_sub 15 y s, ?_, rfl, frame_flagThenResult_vf _ _ y s⟩,
    fun y => ⟨_, exec_subn 15 y s, ?_, rfl, frame_flagThenResult_vf _ _ y s⟩,
    fun y => ⟨_, exec_shr 15 y s, ?_, rfl, frame_flagThenResult_vf _ _ 15 s⟩,
    fun y => ⟨_, exec_shl 15 y s, ?_, rfl, frame_flagThenResult_vf _ _ 15 s⟩,
    fun x hx => ⟨_, exec_sub x 15 s, ?_, ?_, rfl, frame_flagThenResult _ _ _ s⟩,
    fun x hx => ⟨_, exec_subn x 15 s, ?_, ?_, rfl, frame_flagThenResult _ _ _ s⟩⟩
  · split
    next hy => rw [hy, getV_flagThenResult_vf_vf, BitVec.sub_self, BitVec.toNat_zero]
    next hy => rw [getV_flagThenResult_vf_left _ _ s hy, toNat_byte_sub, toNat_greaterFlag]
  · split
    next hy => rw [hy, getV_flagThenResult_vf_vf, BitVec.sub_self, BitVec.toNat_zero]
    next hy => rw [getV_flagThenResult_vf_left _ _ s hy, toNat_byte_sub, toNat_greaterFlag]
  · rw [getV_flagThenResult_vf_vf, lowBitFlag_shiftRight_one]
  · rw [getV_flagThenResult_vf_vf, toNat_highBitFlag_shiftLeft_one]
  · rw [getV_vf_flagThenResult _ _ _ s hx, toNat_greaterFlag]
  · rw [getV_flagThenResult_vf_right _ _ s hx, toNat_byte_sub]
  · rw [getV_vf_flagThenResult _ _ _ s hx, toNat_greaterFlag]
  · rw [getV_flagThenResult_vf_right _ _ s hx, toNat_byte_sub]

end Sys2Proof.Machine
end

section
/-! SUPPORT and PROOFS of the index family (spec/42_index_memory.md): the rows that write I and touch no memory. LD I and
LD F write I alone; ADD I writes VF too where FX1E_VF holds. -/

namespace Sys2Proof.Machine

/-! ## The words of LD I, LD F and ADD I (spec/30_encoding.md R74) -/

theorem decodesTo_ldI (nnn : Addr12) : DecodesTo (0xA000 + nnn.toNat) (.ldI nnn) :=
  decodesTo_of_eq_encode (ofNat_eq_wordNNN 0xA nnn) rfl

theorem decodesTo_ldF (x : RegIdx) : DecodesTo (0xF029 + 0x100 * x.val) (.ldF x) :=
  decodesTo_of_eq_encode (ofNat_eq_wordXKK_familyF x 0x29) rfl

theorem decodesTo_addI (x : RegIdx) : DecodesTo (0xF01E + 0x100 * x.val) (.addI x) :=
  decodesTo_of_eq_encode (ofNat_eq_wordXKK_familyF x 0x1E) rfl

/-! ## The values of I -/

/-- 5 * 255 fits the 16 bits of I, so no glyph address wraps (R153). -/
theorem toNat_glyphAddr (b : Byte) : (glyphAddr b).toNat = b.toNat * 5 := by
  have hlt : b.toNat * 5 < 65536 := by omega
  rw [glyphAddr, BitVec.toNat_mul, BitVec.toNat_setWidth_of_le (by decide)]
  exact Nat.mod_eq_of_lt hlt

theorem toNat_addToIndex (i : Word) (b : Byte) : (addToIndex i b).toNat = (i.toNat + b.toNat) % 0x10000 := by
  rw [addToIndex, BitVec.toNat_add, BitVec.toNat_setWidth_of_le (by decide)]

/-! ## LD I and LD F (R151, R153) -/

theorem frame_setI {w : Writes} (hw : w.index = true) (a : Word) (s : State) : Frame w s (s.setI a) where
  regs _ _ := rfl
  index h := by simp [hw] at h
  stackPointer _ := rfl
  stackEntries _ := rfl
  delay _ := rfl
  sound _ := rfl
  pixels _ _ _ := rfl
  dirty _ := rfl
  keys := rfl
  bytes _ _ := rfl
  fault := rfl
  port _ := rfl
  draws _ := rfl

theorem frame_setI_advance {w : Writes} (hw : w.index = true) (a : Word) (s : State) :
    Frame w s (s.setI a).advance :=
  (frame_setI hw a s).trans (frame_advance w _)

theorem exec_ldI (nnn : Addr12) (s : State) : exec (.ldI nnn) s = .next (s.setI (literalAddr nnn)).advance := rfl

theorem exec_ldF (x : RegIdx) (s : State) : exec (.ldF x) s = .next (s.setI (glyphAddr (s.getV x))).advance := rfl

/-- Settles O25: I holds the literal or the glyph address, and neither wraps. -/
theorem loadIndex : Obligations.LoadIndex :=
  ⟨fun nnn s => ⟨decodesTo_ldI nnn, _, exec_ldI nnn s, toNat_literalAddr nnn, rfl, frame_setI_advance rfl _ s⟩,
   fun x s => ⟨decodesTo_ldF x, _, exec_ldF x s, toNat_glyphAddr _, rfl, frame_setI_advance rfl _ s⟩⟩

/-! ## ADD I (R152; spec decisions D10, D11) -/

theorem exec_addI (x : RegIdx) (s : State) : exec (.addI x) s = .next (addIWith Config.params x s) := rfl

section
variable (p : Params) (x : RegIdx) (s : State)

@[simp] theorem addIWith_pc : (addIWith p x s).pc = s.pc + 2 := by
  unfold addIWith
  split <;> rfl

/-- I is the same under both settings of FX1E_VF. -/
@[simp] theorem addIWith_i : (addIWith p x s).i = addToIndex s.i (s.getV x) := by
  unfold addIWith
  split <;> rfl

variable {p}

theorem addIWith_of_fx1eVf (hp : p.fx1eVf = true) : addIWith p x s =
    ((s.setI (addToIndex s.i (s.getV x))).setVF (addressOverflowFlag s.i (s.getV x))).advance := by
  simp [addIWith, hp]

theorem addIWith_of_not_fx1eVf (hp : p.fx1eVf = false) :
    addIWith p x s = (s.setI (addToIndex s.i (s.getV x))).advance := by
  simp [addIWith, hp]

/-- VF is written from the old I and the old V[x], also where x = F. -/
theorem getV_vf_addIWith (hp : p.fx1eVf = true) :
    (addIWith p x s).getV 15 = addressOverflowFlag s.i (s.getV x) := by
  simp [addIWith_of_fx1eVf x s hp]

theorem frame_addIWith_of_fx1eVf (hp : p.fx1eVf = true) :
    Frame { regs := [15], index := true } s (addIWith p x s) := by
  rw [addIWith_of_fx1eVf x s hp]
  exact ((frame_setI rfl _ s).trans (frame_setV _ (x := RegIdx.vf) (List.mem_singleton_self _) _)).trans
    (frame_advance _ _)

theorem frame_addIWith_of_not_fx1eVf (hp : p.fx1eVf = false) : Frame { index := true } s (addIWith p x s) := by
  rw [addIWith_of_not_fx1eVf x s hp]
  exact frame_setI_advance rfl _ s

end

/-- Settles O26: I and PC under either setting, then VF and the frame by the setting of FX1E_VF. -/
theorem addIndexUnderBothSettings : Obligations.AddIndexUnderBothSettings := by
  intro x s
  refine ⟨decodesTo_addI x, _, exec_addI x s, ?_, addIWith_pc _ x s, fun hp => ⟨?_, frame_addIWith_of_fx1eVf x s hp⟩,
    fun hp => frame_addIWith_of_not_fx1eVf x s hp⟩
  · rw [addIWith_i, toNat_addToIndex]
  · rw [getV_vf_addIWith x s hp, addressOverflowFlag, flagOf_decide]

end Sys2Proof.Machine
end

section
/-! SUPPORT and PROOFS of the display family (spec/43_display_sprite.md): CLS and DRW. A draw that is not fatal XORs one set
of pixels into the frame and reports a collision with the lit ones among them, said once as `Drawn`; drawing a sprite twice
is then a fact about two such draws. -/

namespace Sys2Proof.Machine

theorem frame_setDisp {w : Writes} (hw : w.screen = true) (d : Display) (s : State) : Frame w s (s.setDisp d) where
  regs _ _ := rfl
  index _ := rfl
  stackPointer _ := rfl
  stackEntries _ := rfl
  delay _ := rfl
  sound _ := rfl
  pixels h := by simp [hw] at h
  dirty h := by simp [hw] at h
  keys := rfl
  bytes _ _ := rfl
  fault := rfl
  port _ := rfl
  draws _ := rfl

/-! ## CLS (R173) -/

theorem exec_cls (s : State) : exec .cls s = .next (s.setDisp Display.clear).advance := rfl

/-- Settles O31: the display becomes the clear one, and a clear display has no lit pixel. -/
theorem clsClearsEveryPixel : Obligations.ClsClearsEveryPixel :=
  ⟨decodesTo_of_eq_encode rfl rfl, fun s => ⟨_, exec_cls s, Display.pixel_clear, rfl, rfl,
    (frame_setDisp rfl _ s).trans (frame_advance _ _)⟩⟩

/-! ## The sprite of a DRW (R172, R174) -/

/-- What the engine covers, drawing the bytes f 0 .. f (n - 1), is the sprite they spell. -/
theorem rowsCover_eq_spriteCovers (x0 y0 n : Nat) (f : Nat → Byte) (c r : Nat) :
    rowsCover Config.params x0 y0 ((List.range n).map f) c r = spriteCovers x0 y0 n f c r := by
  by_cases hr : y0 ≤ r ∧ r < y0 + n
  · have hk : r - y0 < n := by omega
    simp [rowsCover, rowCovers, spriteCovers, spriteBit, Config.params, hr, hk]
  · have hc : ¬ (y0 ≤ r ∧ r < y0 + n ∧ x0 ≤ c ∧ c < x0 + 8) := fun h => hr ⟨h.1, h.2.1⟩
    simp [rowsCover, spriteCovers, hr, hc]

/-- A coordinate of DRW: VF is cleared before it is read, so VF as an operand is 0 (R174; spec decision D9). -/
def drwCoord (r : RegIdx) (s : State) : Nat := if r = 15 then 0 else (s.getV r).toNat

theorem drwCoord_of_ne {r : RegIdx} (hr : r ≠ 15) (s : State) : drwCoord r s = (s.getV r).toNat := if_neg hr

theorem toNat_getV_setVF_zero (r : RegIdx) (s : State) : ((s.setVF 0).getV r).toNat = drwCoord r s := by
  by_cases hr : r = 15
  · simp [drwCoord, hr]
  · simp [drwCoord, hr, Ne.symm hr]

/-- The pixels of the sprite that DRW Vx, Vy, n draws from s. -/
def drwCovers (x y : RegIdx) (n : Nibble) (s : State) : Nat → Nat → Bool :=
  spriteCovers (drwCoord x s) (drwCoord y s) n.toNat (fun k => s.byteAt (dataBase s + k))

/-- The sprite bytes of DRW, in the order it draws them. -/
def spriteBytes (n : Nibble) (s : State) : List Byte := (addresses (dataBase s) n.toNat).map s.byteAt

theorem rowsCover_spriteBytes (x y : RegIdx) (n : Nibble) (s : State) :
    rowsCover Config.params (drwCoord x s) (drwCoord y s) (spriteBytes n s) = drwCovers x y n s := by
  funext c r
  rw [spriteBytes, addresses, List.map_map]
  exact rowsCover_eq_spriteCovers ..

/-- A draw begins with no collision, so its flag is about its own pixels alone (R172). -/
theorem drawSprite_spec (p : Params) (x0 y0 : Byte) (bytes : List Byte) (disp : Display) :
    (∀ c r, c < 64 → r < 32 → (drawSprite p x0 y0 bytes disp).disp.pixel c r =
      (disp.pixel c r ^^ rowsCover p x0.toNat y0.toNat bytes c r)) ∧
    ((drawSprite p x0 y0 bytes disp).coll = true ↔
      ∃ c r, c < 64 ∧ r < 32 ∧ rowsCover p x0.toNat y0.toNat bytes c r = true ∧ disp.pixel c r = true) := by
  obtain ⟨hpixels, hcoll⟩ := Draw.rows_spec p x0.toNat bytes y0.toNat { disp := disp, coll := false }
  exact ⟨hpixels, hcoll.trans (or_iff_right Bool.false_ne_true)⟩

/-! ## What a DRW does (R172, R174, R175) -/

/-- From s to t, the pixels of `covers` are XORed into the frame, and VF reports whether one of them was lit. -/
structure Drawn (covers : Nat → Nat → Bool) (s t : State) : Prop where
  pixels : ∀ c r, c < 64 → r < 32 → t.pixelAt c r = (s.pixelAt c r ^^ covers c r)
  flag : t.getV 15 = 0 ∨ t.getV 15 = 1
  collision : t.getV 15 = 1 ↔ ∃ c r, c < 64 ∧ r < 32 ∧ covers c r = true ∧ s.pixelAt c r = true

theorem flagOf_eq_zero_or_one (p : Bool) : flagOf p = 0 ∨ flagOf p = 1 := by
  cases p with
  | false => exact .inl rfl
  | true => exact .inr rfl

theorem flagOf_eq_one {p : Bool} : flagOf p = 1 ↔ p = true := by
  cases p <;> simp [flagOf]

section
variable (x y : RegIdx) (bytes : List Byte) (s : State)

/-- VF holds the collision of the draw, which overwrites the 0 it was cleared to. -/
theorem getV_vf_drawWith : (drawWith Config.params x y bytes s).getV 15 =
    flagOf (drawSprite Config.params ((s.setVF 0).getV x) ((s.setVF 0).getV y) bytes s.disp).coll := by
  simp [drawWith, operandState, vfTiming_params]

theorem drawn_drawWith :
    Drawn (rowsCover Config.params (drwCoord x s) (drwCoord y s) bytes) s (drawWith Config.params x y bytes s) := by
  rw [← toNat_getV_setVF_zero x, ← toNat_getV_setVF_zero y]
  obtain ⟨hpixels, hcoll⟩ := drawSprite_spec Config.params ((s.setVF 0).getV x) ((s.setVF 0).getV y) bytes s.disp
  refine ⟨hpixels, ?_, ?_⟩
  · rw [getV_vf_drawWith]
    exact flagOf_eq_zero_or_one _
  · rw [getV_vf_drawWith, flagOf_eq_one]
    exact hcoll

theorem frame_drawWith : Frame { regs := [15], screen := true } s (drawWith Config.params x y bytes s) :=
  have hvf : RegIdx.vf ∈ [RegIdx.vf] := List.mem_singleton_self _
  (((frame_setV s hvf _).trans (frame_setV _ hvf _)).trans (frame_setDisp rfl _ _)).trans (frame_advance _ _)

end

section
variable {x y : RegIdx} {n : Nibble} {s : State}

/-- With its bytes in range, or none to read, DRW draws them (R55, R174). -/
theorem exec_drw_of_fits (hfit : n = 0 ∨ s.i.toNat + n.toNat ≤ 0x1000) :
    exec (.drw x y n) s = .next (drawWith Config.params x y (spriteBytes n s) s) := by
  have hrange : dataBase s + n.toNat ≤ memSize ∨ n.toNat = 0 := hfit.symm.imp_right (congrArg BitVec.toNat)
  exact commit_map_of_eq_ok _ ((loadBytes_eq ..).trans (if_pos hrange))

theorem exec_drw_drawn (hfit : n = 0 ∨ s.i.toNat + n.toNat ≤ 0x1000) :
    ∃ t, exec (.drw x y n) s = .next t ∧ Drawn (drwCovers x y n s) s t ∧ t.dirty = true ∧ t.pc = s.pc + 2 ∧
      Frame { regs := [15], screen := true } s t :=
  ⟨_, exec_drw_of_fits hfit, rowsCover_spriteBytes x y n s ▸ drawn_drawWith x y _ s, rfl, rfl, frame_drawWith x y _ s⟩

end

theorem decodesTo_drw (x y : RegIdx) (n : Nibble) :
    DecodesTo (0xD000 + 0x100 * x.val + 0x10 * y.val + n.toNat) (.drw x y n) :=
  decodesTo_of_eq_encode (ofNat_eq_wordXYN 0xD x y n) rfl

/-- Settles O32: the engine's pixels and collision flag are those of the sprite. -/
theorem drwXorsTheSprite : Obligations.DrwXorsTheSprite := by
  intro x y n s
  refine ⟨decodesTo_drw x y n, fun hfit => ?_⟩
  obtain ⟨t, hexec, hdrawn, hdirty, hpc, hframe⟩ := exec_drw_drawn (x := x) (y := y) hfit
  exact ⟨t, hexec, hdrawn.pixels, hdrawn.flag, hdrawn.collision, hdirty, hpc, hframe⟩

/-! ## Two draws of one sprite (spec/95_test_vectors.md E5) -/

section
variable {covers : Nat → Nat → Bool} {s t u : State} (hst : Drawn covers s t) (htu : Drawn covers t u)
include hst htu

/-- XOR with the same pixels twice is the identity. -/
theorem Drawn.twice_disp : u.disp = s.disp := by
  apply Display.ext_pixel
  intro c r hc hr
  change u.pixelAt c r = s.pixelAt c r
  rw [htu.pixels c r hc hr, hst.pixels c r hc hr, Bool.xor_assoc, Bool.xor_self, Bool.xor_false]

/-- Where the first draw hit nothing, every pixel it covers is lit by it, and the second draw hits that pixel. -/
theorem Drawn.twice_collision (hfirst : t.getV 15 = 0) :
    u.getV 15 = 1 ↔ ∃ c r, c < 64 ∧ r < 32 ∧ covers c r = true := by
  have hmiss : ¬ ∃ c r, c < 64 ∧ r < 32 ∧ covers c r = true ∧ s.pixelAt c r = true := by
    rw [← hst.collision, hfirst]
    decide
  rw [htu.collision]
  constructor
  · rintro ⟨c, r, hc, hr, hcov, -⟩
    exact ⟨c, r, hc, hr, hcov⟩
  · rintro ⟨c, r, hc, hr, hcov⟩
    have hdark : s.pixelAt c r = false := by
      by_contra hlit
      exact hmiss ⟨c, r, hc, hr, hcov, by simpa using hlit⟩
    exact ⟨c, r, hc, hr, hcov, by rw [hst.pixels c r hc hr, hdark, hcov, Bool.false_xor]⟩

end

/-- After a draw, a sprite placed by registers other than VF covers the same pixels. -/
theorem drwCovers_of_frame {x y : RegIdx} {s t : State} (n : Nibble) (hx : x ≠ 15) (hy : y ≠ 15)
    (hf : Frame { regs := [15], screen := true } s t) : drwCovers x y n t = drwCovers x y n s := by
  have hread {r : RegIdx} (hr : r ≠ 15) : t.getV r = s.getV r := hf.regs r fun h => hr (List.mem_singleton.1 h)
  have hbyte (a : Nat) : t.byteAt a = s.byteAt a := hf.bytes a List.not_mem_nil
  simp only [drwCovers, drwCoord, dataBase, hread hx, hread hy, hf.index rfl, hbyte]

/-- Settles O34: both draws cover the same pixels. -/
theorem drawingTwiceRestoresTheDisplay : Obligations.DrawingTwiceRestoresTheDisplay := by
  intro x y n s hx hy hfit
  obtain ⟨t, ht, hst, -, -, hframe⟩ := exec_drw_drawn (x := x) (y := y) hfit
  have hi : t.i = s.i := hframe.index rfl
  obtain ⟨u, hu, htu, -⟩ := exec_drw_drawn (x := x) (y := y) (hi.symm ▸ hfit)
  rw [drwCovers_of_frame n hx hy hframe] at htu
  rw [← drwCoord_of_ne hx, ← drwCoord_of_ne hy]
  exact ⟨t, u, ht, hu, hst.twice_disp htu, hst.twice_collision htu⟩

end Sys2Proof.Machine
end

section
/-! SUPPORT and PROOFS of the keypad and timer family (spec/44_keys_timers.md): the key skips, which answer a key's level or
end in their fatal entry, the moves between a timer and a register, and the wait for a key. -/

namespace Sys2Proof.Machine

/-! ## The words of families E and F (spec/30_encoding.md R74) -/

/-- A word of family E with its fixed fields first, as the statements spell it. -/
theorem ofNat_eq_wordXKK_familyE (x : RegIdx) (kk : Byte) :
    BitVec.ofNat 16 (0xE000 + kk.toNat + 0x100 * x.val) = wordXKK 0xE x kk := by
  rw [Nat.add_right_comm]
  exact ofNat_eq_wordXKK 0xE x kk

theorem ofNat_eq_encode_skp (x : RegIdx) : BitVec.ofNat 16 (0xE09E + 0x100 * x.val) = encode (.skp x) :=
  ofNat_eq_wordXKK_familyE x 0x9E

theorem ofNat_eq_encode_sknp (x : RegIdx) : BitVec.ofNat 16 (0xE0A1 + 0x100 * x.val) = encode (.sknp x) :=
  ofNat_eq_wordXKK_familyE x 0xA1

theorem decodesTo_skp (x : RegIdx) : DecodesTo (0xE09E + 0x100 * x.val) (.skp x) :=
  decodesTo_of_eq_encode (ofNat_eq_encode_skp x) rfl

theorem decodesTo_sknp (x : RegIdx) : DecodesTo (0xE0A1 + 0x100 * x.val) (.sknp x) :=
  decodesTo_of_eq_encode (ofNat_eq_encode_sknp x) rfl

theorem decodesTo_ldVxDt (x : RegIdx) : DecodesTo (0xF007 + 0x100 * x.val) (.ldVxDt x) :=
  decodesTo_of_eq_encode (ofNat_eq_wordXKK_familyF x 0x07) rfl

theorem decodesTo_ldVxK (x : RegIdx) : DecodesTo (0xF00A + 0x100 * x.val) (.ldVxK x) :=
  decodesTo_of_eq_encode (ofNat_eq_wordXKK_familyF x 0x0A) rfl

theorem decodesTo_ldDtVx (x : RegIdx) : DecodesTo (0xF015 + 0x100 * x.val) (.ldDtVx x) :=
  decodesTo_of_eq_encode (ofNat_eq_wordXKK_familyF x 0x15) rfl

theorem decodesTo_ldStVx (x : RegIdx) : DecodesTo (0xF018 + 0x100 * x.val) (.ldStVx x) :=
  decodesTo_of_eq_encode (ofNat_eq_wordXKK_familyF x 0x18) rfl

/-! ## SKP and SKNP (R190, R191; spec decision D7) -/

theorem readKey_of_eq {s : State} {b : Byte} {k : Fin 16} (hk : b.toNat = k.val) : readKey s b = .ok s.key[k] := by
  simp [readKey, hk]

theorem readKey_of_gt {s : State} {b : Byte} (hb : 15 < b.toNat) : readKey s b = .error (.keyIndexOutOfRange b) :=
  dif_neg (not_lt.2 hb)

/-- An instruction that names a key above 15 ends in its fatal entry, whatever it would have done with the level. -/
theorem commit_readKey_of_gt {w : Word} {s : State} {b : Byte} (g : Bool → State) (hb : 15 < b.toNat) :
    commit w s ((readKey s b).map g) = .next (haltedWith s .keyIndexOutOfRange w (BitVec.ofNat 16 b.toNat)) := by
  rw [commit_map_of_eq_error g (readKey_of_gt hb), BitVec.ofNat_toNat]
  rfl

section
variable {x : RegIdx} {s : State}

theorem exec_skp_of_eq {k : Fin 16} (hk : (s.getV x).toNat = k.val) :
    exec (.skp x) s = .next (s.skipIf s.key[k]) :=
  commit_map_of_eq_ok (fun pressed => s.skipIf pressed) (readKey_of_eq hk)

theorem exec_sknp_of_eq {k : Fin 16} (hk : (s.getV x).toNat = k.val) :
    exec (.sknp x) s = .next (s.skipIf (!s.key[k])) :=
  commit_map_of_eq_ok (fun pressed => s.skipIf (!pressed)) (readKey_of_eq hk)

theorem exec_skp_of_gt (h : 15 < (s.getV x).toNat) : exec (.skp x) s =
    .next (haltedWith s .keyIndexOutOfRange (encode (.skp x)) (BitVec.ofNat 16 (s.getV x).toNat)) :=
  commit_readKey_of_gt (fun pressed => s.skipIf pressed) h

theorem exec_sknp_of_gt (h : 15 < (s.getV x).toNat) : exec (.sknp x) s =
    .next (haltedWith s .keyIndexOutOfRange (encode (.sknp x)) (BitVec.ofNat 16 (s.getV x).toNat)) :=
  commit_readKey_of_gt (fun pressed => s.skipIf (!pressed)) h

end

theorem skipIf_pc_eq_ite (p : Bool) (s : State) : (s.skipIf p).pc = if p then s.pc + 4 else s.pc + 2 := by
  cases p <;> rfl

theorem skipIf_not_pc_eq_ite (p : Bool) (s : State) : (s.skipIf (!p)).pc = if p then s.pc + 2 else s.pc + 4 := by
  cases p <;> rfl

/-- Settles O35: V[x] names key k, whose level both skips read, or it names no key. -/
theorem keySkipsReadTheKeyLevel : Obligations.KeySkipsReadTheKeyLevel := by
  intro x s
  refine ⟨decodesTo_skp x, decodesTo_sknp x, fun k hk =>
    ⟨⟨_, exec_skp_of_eq hk, skipIf_pc_eq_ite _ s, frame_skipIf _ _ s⟩,
     ⟨_, exec_sknp_of_eq hk, skipIf_not_pc_eq_ite _ s, frame_skipIf _ _ s⟩⟩, fun h => ?_⟩
  rw [ofNat_eq_encode_skp, ofNat_eq_encode_sknp]
  exact ⟨exec_skp_of_gt h, exec_sknp_of_gt h⟩

/-! ## LD Vx, DT, LD DT, Vx and LD ST, Vx (R192, R194, R195) -/

theorem frame_setDt {w : Writes} (hw : w.delay = true) (b : Byte) (s : State) : Frame w s (s.setDt b) where
  regs _ _ := rfl
  index _ := rfl
  stackPointer _ := rfl
  stackEntries _ := rfl
  delay h := by simp [hw] at h
  sound _ := rfl
  pixels _ _ _ := rfl
  dirty _ := rfl
  keys := rfl
  bytes _ _ := rfl
  fault := rfl
  port _ := rfl
  draws _ := rfl

theorem frame_setSt {w : Writes} (hw : w.sound = true) (b : Byte) (s : State) : Frame w s (s.setSt b) where
  regs _ _ := rfl
  index _ := rfl
  stackPointer _ := rfl
  stackEntries _ := rfl
  delay _ := rfl
  sound h := by simp [hw] at h
  pixels _ _ _ := rfl
  dirty _ := rfl
  keys := rfl
  bytes _ _ := rfl
  fault := rfl
  port _ := rfl
  draws _ := rfl

theorem exec_ldVxDt (x : RegIdx) (s : State) : exec (.ldVxDt x) s = .next (writeReg x s.dt s) := rfl

theorem exec_ldDtVx (x : RegIdx) (s : State) : exec (.ldDtVx x) s = .next (s.setDt (s.getV x)).advance := rfl

theorem exec_ldStVx (x : RegIdx) (s : State) : exec (.ldStVx x) s = .next (s.setSt (s.getV x)).advance := rfl

/-- The tone sounds exactly while ST is not 0 (spec/60_exceptions.md R223). -/
theorem tone_eq_true {s : State} : tone s = true ↔ s.st ≠ 0 := bne_iff_ne

/-- Settles O36: a register or a timer is written and PC advances; the tone follows the ST written. -/
theorem timerMoves : Obligations.TimerMoves := by
  intro x s
  exact ⟨decodesTo_ldVxDt x, decodesTo_ldDtVx x, decodesTo_ldStVx x,
    ⟨_, exec_ldVxDt x s, getV_writeReg_same x _ s, rfl, frame_writeReg_self x _ s⟩,
    ⟨_, exec_ldDtVx x s, rfl, rfl, (frame_setDt rfl _ s).trans (frame_advance _ _)⟩,
    ⟨_, exec_ldStVx x s, rfl, tone_eq_true, rfl, (frame_setSt rfl _ s).trans (frame_advance _ _)⟩⟩

/-! ## LD Vx, K (R193) -/

theorem exec_ldVxK_of_none (x : RegIdx) {s : State} (h : ∀ j : Fin 16, s.key[j] = false) :
    exec (.ldVxK x) s = .next s :=
  execLdVxK_of_none (highestKey_eq_none.2 h)

theorem exec_ldVxK_of_highest (x : RegIdx) {s : State} {j : Fin 16} (hj : s.key[j] = true)
    (habove : ∀ k : Fin 16, j < k → s.key[k] = false) :
    exec (.ldVxK x) s = .next (writeReg x (BitVec.ofNat 8 j.val) s) :=
  execLdVxK_of_some (highestKey_eq_some.2 ⟨hj, habove⟩)

/-- A step that runs LD Vx, K with no key pressed is one that waits. -/
theorem stepWaits_of_ldVxK {x : RegIdx} {s : State} (hr : Runs s) (hd : decode (wordAtPc s) = .ok (.ldVxK x))
    (h : ∀ j : Fin 16, s.key[j] = false) : stepWaits s = true :=
  stepWaits_iff.2 ⟨⟨x, stepInstr_of_runs hr hd⟩, h⟩

theorem stepReply_of_stepWaits {s : State} (hrun : s.fault.halted = false) (h : stepWaits s = true) :
    stepReply s = .waiting := by
  simp [stepReply, hrun, h]

/-- A key index fits the byte that V[x] takes. -/
theorem toNat_ofNat_key (j : Fin 16) : (BitVec.ofNat 8 j.val).toNat = j.val := by
  rw [BitVec.toNat_ofNat, Nat.mod_eq_of_lt (by omega)]

/-- Settles O37: the wait changes nothing, in exec and in the step that retries it; else V[x] takes the highest key. -/
theorem keyWaitPollsTheHighestKey : Obligations.KeyWaitPollsTheHighestKey := by
  intro x s
  refine ⟨decodesTo_ldVxK x, fun hnone => ⟨exec_ldVxK_of_none x hnone, fun hr hd => ?_⟩, fun j hj habove =>
    ⟨_, exec_ldVxK_of_highest x hj habove, ?_, rfl, frame_writeReg_self x _ s⟩⟩
  · have hwaits : stepWaits s = true := stepWaits_of_ldVxK hr hd hnone
    exact ⟨step_of_stepWaits hwaits, stepReply_of_stepWaits hr.running hwaits⟩
  · rw [getV_writeReg_same, toNat_ofNat_key]

end Sys2Proof.Machine
end

section
/-! PROOFS of the exceptions family (spec/60_exceptions.md): what a tick does to the timers, what the other device
transactions reach, and what a halted machine keeps. -/

namespace Sys2Proof.Machine

/-! ## The timers (R220, R222) -/

/-- Truncated subtraction on `Nat` is the "never negative" of R220. -/
theorem toNat_countDown (b : Byte) : (countDown b).toNat = b.toNat - 1 := by
  unfold countDown
  split
  case isTrue hpos => bv_omega
  case isFalse hzero => omega

/-- Settles O38: the two bytes are what the counters hold after counting down. -/
theorem tickCountsBothTimersDown : Obligations.TickCountsBothTimersDown := by
  intro s
  exact ⟨countDown s.dt, countDown s.st, rfl, toNat_countDown s.dt, toNat_countDown s.st⟩

/-- Settles O39, by induction on the number of ticks, the first tick taken off. -/
theorem ticksNeverGoNegative : Obligations.TicksNeverGoNegative := by
  intro n
  induction n with
  | zero => exact fun s => ⟨rfl, rfl⟩
  | succ n ih =>
    intro s
    obtain ⟨hdt, hst⟩ := ih (tick s)
    rw [tick_dt, toNat_countDown] at hdt
    rw [tick_st, toNat_countDown] at hst
    rw [Nat.iterate]
    omega

/-! ## The device transactions (R220, R225, R226) -/

/-- A tick writes the two timers, one after the other. -/
theorem tick_eq_setDt_setSt (s : State) : tick s = (s.setDt (countDown s.dt)).setSt (countDown s.st) := rfl

theorem frame_tick (s : State) : Frame { delay := true, sound := true } s (tick s) :=
  tick_eq_setDt_setSt s ▸ (frame_setDt rfl _ s).trans (frame_setSt rfl _ _)

theorem keySet_key_getElem (m : BitVec 16) (s : State) (k : Fin 16) : (keySet m s).key[k] = m.getLsbD k.val := by
  rw [keySet_key, Fin.getElem_fin, Vector.getElem_ofFn]

/-- Settles O41: the transactions answer outright, and each writes its own device. -/
theorem hostDeviceTransactions : Obligations.HostDeviceTransactions := by
  intro h
  refine ⟨?tick, fun m => ?keySet, ?dirtyClr⟩
  case tick => exact ⟨_, rfl, rfl, rfl, frame_tick h.machine, tick_pc h.machine⟩
  case keySet => exact ⟨_, rfl, rfl, keySet_key_getElem m h.machine, rfl⟩
  case dirtyClr => exact ⟨_, rfl, rfl, dirtyClr_dirty h.machine, rfl⟩

/-! ## The halted machine (R214, R215) -/

theorem stepReply_of_halted {s : State} (hh : s.fault.halted = true) : stepReply s = .halted := by
  simp [stepReply, hh]

theorem stepLog_of_halted {s : State} (hh : s.fault.halted = true) : stepLog s = none :=
  stepLog_of_not_runs fun hr => Bool.false_ne_true (hr.running.symm.trans hh)

/-- A step transaction of a halted machine is absorbed, and the rand port is no part of the fault status. -/
theorem apply_step_fault_of_halted {h h' : Session} {b : Byte} (hh : h.machine.fault.halted = true)
    (ha : h.apply (.step b) = .next h') : h'.machine.fault = h.machine.fault := by
  obtain ⟨u, hu, rfl⟩ := apply_step_eq_next ha
  have habsorbed : step (presentRand b h.machine) = .next (presentRand b h.machine) := step_of_halted hh
  obtain rfl : presentRand b h.machine = u := Host.Outcome.next.inj (habsorbed.symm.trans hu)
  rfl

/-- Of the transactions, a step and a reset alone can write the fault status; a halted machine's step writes nothing. -/
theorem apply_fault_of_halted {h h' : Session} {tx : Transaction} (hh : h.machine.fault.halted = true)
    (ha : h.apply tx = .next h') (hreset : tx ≠ .reset) : h'.machine.fault = h.machine.fault := by
  cases tx with
  | reset => exact absurd rfl hreset
  | load k b =>
    obtain ⟨-, rfl⟩ := apply_load_eq_next ha
    rfl
  | loadRom image =>
    obtain ⟨-, rfl⟩ := apply_loadRom_eq_next ha
    rfl
  | step b => exact apply_step_fault_of_halted hh ha
  | tick | keySet | dirtyClr =>
    cases ha
    rfl

theorem apply_reset_halted {h h' : Session} (ha : h.apply .reset = .next h') : h'.machine.fault.halted = false := by
  cases ha
  rfl

/-- Settles O46: a step is absorbed, no other transaction but a reset reaches the fault status, and a reset clears it. -/
theorem onlyResetLeavesHalted : Obligations.OnlyResetLeavesHalted :=
  ⟨fun _ hh => ⟨step_of_halted hh, stepReply_of_halted hh, stepLog_of_halted hh⟩,
    fun _ _ _ => apply_fault_of_halted, fun _ _ => apply_reset_halted⟩

end Sys2Proof.Machine
end

section
/-! PROOFS of the reset family (spec/70_reset_and_hazards.md): a reset leaves no piece of the machine's state behind. -/

namespace Sys2Proof.Machine

/-! ## What memory that lists nothing reads as (R38) -/

theorem Memory.background_font {a : Nat} (h : a < 80) : Memory.background a = Config.font[a] := dif_pos h

theorem Memory.background_above_font {a : Nat} (h : 80 ≤ a) : Memory.background a = 0 := dif_neg (by omega)

/-! ## The reset values (R240) -/

/-- A reset reads of the old state only its count of random draws, which is no piece of the machine (log entry 4). So the
reset values hold whatever state the reset finds. -/
theorem resetMachine_resetValues (s : State) : ResetValues (resetMachine s) where
  regs r := Vector.getElem_replicate r.isLt
  index := rfl
  pc := rfl
  stackPointer := rfl
  stackEntries k := Vector.getElem_replicate k.isLt
  delay := rfl
  sound := rfl
  pixels := Display.pixel_clear
  dirty := rfl
  keys k := Vector.getElem_replicate k.isLt
  font _ h := Memory.background_font h
  memory _ h _ := Memory.background_above_font h
  fault := rfl
  tone := rfl

/-- Construction is a reset (R241): the first state is the one that a reset makes of it. -/
theorem resetMachine_reset : resetMachine State.reset = State.reset := rfl

theorem reset_resetValues : ResetValues State.reset :=
  resetMachine_reset ▸ resetMachine_resetValues State.reset

/-- Settles O42: the machine at construction is a reset machine, and the transaction answers one from every session. -/
theorem resetRebuildsEveryEntity : Obligations.ResetRebuildsEveryEntity :=
  ⟨reset_resetValues, rfl, fun h => ⟨_, rfl, rfl, resetMachine_resetValues h.machine⟩⟩

end Sys2Proof.Machine
end
